-- ==== Sys2Proof/Word.lean ====
section
/-! DEFINITION. The two value types of the core: every value is an unsigned integer of fixed width (R10). -/

namespace Sys2Proof

/-- A 32-bit word (R7, R10). -/
abbrev Word := BitVec 32

/-- A message or buffer byte (R7, R10). -/
abbrev Byte := BitVec 8

end Sys2Proof
end

