-- ==== Sys2Proof/Syntax.lean ====
section
/-! DEFINITION. The syntax of the core's commands: one constructor per row of spec/opcode_table.json (R71, R73, R78). -/

namespace Sys2Proof

/-- A host command. The only operand is UPDATE's byte count, written in decimal as in R78; DATA_IN is an implicit
register operand (R74). -/
inductive Instr where
  /-- NOP (R171). -/
  | nop
  /-- INIT: start a new message (R172). -/
  | init
  /-- UPDATE n: absorb n message bytes from DATA_IN (R173). -/
  | update (n : Nat)
  /-- FINAL: pad and finish the message (R174). -/
  | final
  deriving DecidableEq, Repr

end Sys2Proof
end

