-- ==== Sys2Proof/WellFormed.lean ====
section
/-! DEFINITION. Which commands exist: UPDATE takes 1 to 4 bytes, and "`UPDATE 0` and `UPDATE 5` are not syntax; no encoding exists for them" (R72, R78). -/

namespace Sys2Proof

/-- The one check on a command: UPDATE's byte count is 1, 2, 3 or 4 (R72, R78). -/
def Instr.wf : Instr → Bool
  | .nop => true
  | .init => true
  | .update n => decide (1 ≤ n) && decide (n ≤ 4)
  | .final => true

/-- `i` is a command of the hardware. -/
abbrev WellFormed (i : Instr) : Prop := i.wf = true

end Sys2Proof
end

