-- ==== Sys2Proof/Decode.lean ====
section
/-! DEFINITION. The command decoder, total on all 2^32 words (R76), the encoder (R73), and the rows of the encoding table (R73). -/

namespace Sys2Proof

/-- OP, bits 3:0 of a command word (R70). -/
def opField (w : Word) : BitVec 4 := w.extractLsb' 0 4

/-- NB, bits 5:4 of a command word (R70). -/
def nbField (w : Word) : BitVec 2 := w.extractLsb' 4 2

/-- RSV, bits 31:6 of a command word (R70). -/
def rsvField (w : Word) : BitVec 26 := w.extractLsb' 6 26

/-- UPDATE's byte count `n = zext_3(w[5:4]) + 1` (R72). -/
def byteCount (w : Word) : Nat := (nbField w).toNat + 1

/-- Why a word is no command, the three groups of R75. The names are the model's (log entry 13): the core records
only that the word was illegal. -/
inductive IllegalWord where
  /-- OP is one of 0x4..0xF. -/
  | reservedOp
  /-- OP names a command and a bit of RSV is set. -/
  | reservedBits
  /-- NOP, INIT or FINAL with NB ≠ 00. -/
  | countOnOtherCommand
  deriving DecidableEq, Repr

/-- What the decoder answers (R76): a command, or ILLEGAL. -/
inductive Command where
  | legal (i : Instr)
  | illegal (why : IllegalWord)
  deriving DecidableEq, Repr

/-- Which group of R75 an illegal word is put in. -/
def illegalReason (w : Word) : IllegalWord :=
  if 4 ≤ (opField w).toNat then .reservedOp
  else if rsvField w ≠ 0 then .reservedBits
  else .countOnOtherCommand

/-- The decoder of R76. -/
def decode (w : Word) : Command :=
  if w = 0x00000000#32 then .legal .nop
  else if w = 0x00000001#32 then .legal .init
  else if w &&& 0xFFFFFFCF#32 = 0x00000002#32 then .legal (.update (byteCount w))
  else if w = 0x00000003#32 then .legal .final
  else .illegal (illegalReason w)

/-- A row of the encoding table R73: a word encodes the row's command exactly when `w & mask = pattern`. -/
structure Row where
  pattern : Word
  mask : Word
  deriving DecidableEq, Repr

/-- The row of R73 (and of spec/opcode_table.json) for a command. -/
def Instr.row : Instr → Row
  | .nop => ⟨0x00000000#32, 0xFFFFFFFF#32⟩
  | .init => ⟨0x00000001#32, 0xFFFFFFFF#32⟩
  | .update _ => ⟨0x00000002#32, 0xFFFFFFCF#32⟩
  | .final => ⟨0x00000003#32, 0xFFFFFFFF#32⟩

/-- The four rows of R73, in its order. -/
def opcodeRows : List Row := [Instr.nop.row, Instr.init.row, (Instr.update 1).row, Instr.final.row]

/-- `w` matches the row `r` (R73). -/
def Row.covers (r : Row) (w : Word) : Bool := decide (w &&& r.mask = r.pattern)

/-- The word of a command (R73): UPDATE n is `0x00000002 | ((n − 1) << 4)` (R173). UPDATE with another count than 1 to 4 has
none: "no encoding exists for them" (R78). -/
def encode : Instr → Option Word
  | .nop => some 0x00000000#32
  | .init => some 0x00000001#32
  | .update n => if WellFormed (.update n) then some (0x00000002#32 ||| (BitVec.ofNat 32 (n - 1) <<< 4)) else none
  | .final => some 0x00000003#32

/-- What the decoder reads from an instruction of `nbits` bits with value `w`, bits above `nbits` being zero. A command
is exactly one 32-bit write (R70): there is no longer one. -/
def decodeTableWord (nbits w : Nat) : Option Instr :=
  if nbits ≤ 32 then
    match decode (BitVec.ofNat 32 (w % 2 ^ nbits)) with
    | .legal i => some i
    | .illegal _ => none
  else none

end Sys2Proof
end

