-- ==== Sys2Proof/Config.lean ====
section
/-! DEFINITION. What an implementation fixes: the two constant tables (R24, R25; 93 I1, I2), the open clock parameter (R8), and the one free value of the host's notation. The parameter BASE (R8) is the field `window` of State, log entry 2. -/

namespace Sys2Proof.Config

/-- The table of R24 as it stands there: row r holds K[8r] to K[8r + 7]. -/
def roundConstantRows : Vector (Vector Word 8) 8 :=
  #v[#v[0x428a2f98, 0x71374491, 0xb5c0fbcf, 0xe9b5dba5, 0x3956c25b, 0x59f111f1, 0x923f82a4, 0xab1c5ed5],
     #v[0xd807aa98, 0x12835b01, 0x243185be, 0x550c7dc3, 0x72be5d74, 0x80deb1fe, 0x9bdc06a7, 0xc19bf174],
     #v[0xe49b69c1, 0xefbe4786, 0x0fc19dc6, 0x240ca1cc, 0x2de92c6f, 0x4a7484aa, 0x5cb0a9dc, 0x76f988da],
     #v[0x983e5152, 0xa831c66d, 0xb00327c8, 0xbf597fc7, 0xc6e00bf3, 0xd5a79147, 0x06ca6351, 0x14292967],
     #v[0x27b70a85, 0x2e1b2138, 0x4d2c6dfc, 0x53380d13, 0x650a7354, 0x766a0abb, 0x81c2c92e, 0x92722c85],
     #v[0xa2bfe8a1, 0xa81a664b, 0xc24b8b70, 0xc76c51a3, 0xd192e819, 0xd6990624, 0xf40e3585, 0x106aa070],
     #v[0x19a4c116, 0x1e376c08, 0x2748774c, 0x34b0bcb5, 0x391c0cb3, 0x4ed8aa4a, 0x5b9cca4f, 0x682e6ff3],
     #v[0x748f82ee, 0x78a5636f, 0x84c87814, 0x8cc70208, 0x90befffa, 0xa4506ceb, 0xbef9a3f7, 0xc67178f2]]

/-- The round-constant ROM K[0..63] (R24), read off its rows. No step writes it and reset does not change it, so it is a
table of the configuration and not a field of State (93 I1, log entry 1). -/
def K : Vector Word 64 := Vector.ofFn fun t : Fin 64 => roundConstantRows[t.val / 8][t.val % 8]

/-- The initialisation vector IV[0..7] that INIT and reset load into H (R25; 93 I2, log entry 1). -/
def IV : Vector Word 8 :=
  #v[0x6a09e667, 0xbb67ae85, 0x3c6ef372, 0xa54ff53a,
     0x510e527f, 0x9b05688c, 0x1f83d9ab, 0x5be0cd19]

/-- CYCLES_PER_STEP (R8, R228): open, and no rule depends on it, so nothing in the model reads it (log entry 3). -/
opaque cyclesPerStep : Nat

/-- The value of host variable `x` before the host's program has read anything into it: the spec states none (R79), so it
is a FREE VALUE (log entry 9). It is host-side, and no state of the core ever depends on it except through what the
host's program then does. -/
opaque unsetVar : Nat → Word

end Sys2Proof.Config
end

