-- ==== Sys2Proof/Machine/Bits.lean ====
section
/-! DEFINITION. The combinational word primitives (R90 to R95), the mixing and selector functions (R121, R122, R140 to R143), and the big-endian byte and word views (R12, R57, R160). Addition, xor, and, not are BitVec's `+`, `^^^`, `&&&`, `~~~` on 32 bits, which are R92 to R95. -/

namespace Sys2Proof.Machine

/-- 32-bit right rotation by `n`, 0 ≤ n ≤ 31 (R90). At n = 0 the left part is shifted out whole, so the result is `x`. -/
def rotr (x : Word) (n : Nat) : Word := (x >>> n) ||| (x <<< (32 - n))

/-- Logical right shift (R91). -/
def shr (x : Word) (n : Nat) : Word := x >>> n

/-- σ0 of the schedule expander (R121). -/
def smallSigma0 (x : Word) : Word := rotr x 7 ^^^ rotr x 18 ^^^ shr x 3

/-- σ1 of the schedule expander (R122). -/
def smallSigma1 (x : Word) : Word := rotr x 17 ^^^ rotr x 19 ^^^ shr x 10

/-- Σ0 of the rounds (R140). -/
def bigSigma0 (x : Word) : Word := rotr x 2 ^^^ rotr x 13 ^^^ rotr x 22

/-- Σ1 of the rounds (R141). -/
def bigSigma1 (x : Word) : Word := rotr x 6 ^^^ rotr x 11 ^^^ rotr x 25

/-- Ch, choose (R142). -/
def ch (x y z : Word) : Word := (x &&& y) ^^^ (~~~x &&& z)

/-- Maj, majority (R143). -/
def maj (x y z : Word) : Word := (x &&& y) ^^^ (x &&& z) ^^^ (y &&& z)

/-- BE32: the big-endian word of four bytes (R12, R120). -/
def be32 (b0 b1 b2 b3 : Byte) : Word :=
  (b0.zeroExtend 32 <<< 24) ||| (b1.zeroExtend 32 <<< 16) ||| (b2.zeroExtend 32 <<< 8) ||| b3.zeroExtend 32

/-- Byte `j` of a word, most significant first: `w[31−8j : 24−8j]` for j = 0..3 (R57, R160). -/
def wordByte (w : Word) (j : Nat) : Byte := w.extractLsb' (24 - 8 * j) 8

/-- BE32bytes: the four bytes of a word in big-endian order (R12). -/
def be32Bytes (w : Word) : List Byte := [wordByte w 0, wordByte w 1, wordByte w 2, wordByte w 3]

/-- Byte `j` of a 64-bit value, most significant first: `v[63−8j : 56−8j]` for j = 0..7 (R12). -/
def lengthByte (v : BitVec 64) (j : Nat) : Byte := v.extractLsb' (56 - 8 * j) 8

/-- BE64bytes: the eight bytes of a 64-bit value in big-endian order (R12). -/
def be64Bytes (v : BitVec 64) : List Byte := (List.range 8).map (lengthByte v)

end Sys2Proof.Machine
end

