-- ==== Sys2Proof/Machine/State.lean ====
section
/-! DEFINITION. The state of one core instance (R20), the host's side beside it (R15, R79, R230), the reasons a step stops, and the state after reset (R220, R221). -/

namespace Sys2Proof.Machine

/-- PHASE, the sequencer's phase (R29). -/
inductive Phase where
  | idle
  | sched
  | round
  | fold
  deriving DecidableEq, Repr

/-- The errors of R201. "No error" is ERRCODE 0, which no command raises. -/
inductive ErrCode where
  | busy
  | illegal
  | seq
  deriving DecidableEq, Repr

/-- The eight working registers (R22). -/
structure Working where
  a : Word
  b : Word
  c : Word
  d : Word
  e : Word
  f : Word
  g : Word
  h : Word
  deriving DecidableEq, Repr

/-- The named registers of the window (R51). The other offsets are reserved. -/
inductive Reg where
  | cmd
  | status
  | dataIn
  | lenLo
  | lenHi
  | digest (i : Fin 8)
  deriving DecidableEq, Repr

/-- A statement of a host program (R79). Variables and labels are numbered (log entry 8). -/
inductive Stmt where
  /-- `WR reg, imm32`. -/
  | wr (r : Reg) (v : Word)
  /-- `RD s, reg`. -/
  | rd (x : Nat) (r : Reg)
  /-- `BNZ s, mask, label`. -/
  | bnz (x : Nat) (mask : Word) (target : Nat)
  /-- `label:`. -/
  | label (l : Nat)
  /-- `HALT`. -/
  | halt
  deriving DecidableEq, Repr

/-- Who takes the next step (R15, log entry 4). -/
inductive Turn where
  /-- The core agent: its next micro-step, if one is enabled. -/
  | core
  /-- The host runs the next statement of its program. -/
  | script
  /-- The host reads `size` bytes at `addr`. -/
  | read (addr size : Nat)
  /-- The host writes `v`, `size` bytes, at `addr`. -/
  | write (addr size : Nat) (v : Word)
  /-- The host or the platform asserts reset (R220). -/
  | reset
  deriving DecidableEq, Repr

/-- The host's side: its program, the statement it stands at, its variables, latest value first, and the values its
reads returned, oldest first, which are the observation of a run (R79, R230). -/
structure HostSide where
  script : List Stmt
  pos : Nat
  vars : List (Nat × Word)
  reads : List Word
  deriving DecidableEq, Repr

/-- One core instance (the table of R20) with its surroundings. `H` to `errcode` are the core's own state. `window`,
`turns` and `host` are the model's: where the window is mapped, who moves next, and the host (log entries 2, 4, 8). -/
structure State where
  /-- H[0..7], the hash state (R21). -/
  H : Vector Word 8
  /-- a..h, the working registers (R22). -/
  work : Working
  /-- W[0..63], the message schedule (R23). -/
  W : Vector Word 64
  /-- BUF[0..63], the block buffer (R26). -/
  buf : Vector Byte 64
  /-- BUFCNT, the message bytes held in BUF (R27). -/
  bufcnt : BitVec 6
  /-- LEN, the message length in bits, modulo 2^64 (R28). -/
  len : BitVec 64
  /-- DATA_IN, the UPDATE data word (R35). -/
  dataIn : Word
  /-- PHASE (R29). -/
  phase : Phase
  /-- T, the round or schedule index (R29). -/
  t : BitVec 6
  /-- PEND2, a second padding block is pending (R30). -/
  pend2 : Bool
  /-- FIN, the current job belongs to FINAL (R31). -/
  fin : Bool
  /-- DONE, the digest is valid (R32). -/
  done : Bool
  /-- ERR, the sticky error bit (R33). -/
  err : Bool
  /-- ERRCODE, the first error's code (R33). -/
  errcode : BitVec 3
  /-- BASE / 256, so that BASE is a multiple of 256 (R8). -/
  window : Nat
  /-- The turns still to be taken, next first. -/
  turns : List Turn
  /-- The host's side. -/
  host : HostSide
  deriving DecidableEq, Repr

/-- Why the machine stops with a fault. -/
inductive Fault where
  /-- Raised by a host access to an address outside BASE .. BASE+0xFF: no address of this core (R50). Safe. -/
  | outsideWindow
  /-- Raised by the core's turn with PHASE = SCHED and T < 16: no rule gives a step there, and no run reaches it (R29).
  Safe. -/
  | schedIndexBelow16
  deriving DecidableEq, Repr

/-- Why the machine refuses. -/
inductive Refusal where
  /-- Raised by an arm of exec for a command without a meaning yet; no arm does. Safe. -/
  | notModelled (mnemonic : String)
  /-- Raised by a host access of another width than 32 bits: "they have no step" (R52, 93 I3). Safe. -/
  | accessWidth
  /-- Raised by a misaligned 32-bit host access: "they have no step" (R52, 93 I3). Safe. -/
  | accessMisaligned
  /-- Raised by UPDATE n with n outside 1..4, which is no command and has no encoding (R78). Safe. -/
  | countOutOfRange
  /-- Raised by a BNZ that is taken to a label the host's program does not hold: no statement of R79's notation.
  Safe. -/
  | noSuchLabel
  deriving DecidableEq, Repr

/-- The state after reset (R220, R221, the reset column of R20). The last three fields are the model's: the window at 0
(log entry 2), no turn waiting (log entry 4), a host without a program (log entry 8). -/
def State.reset : State where
  H := Config.IV
  work := ⟨0, 0, 0, 0, 0, 0, 0, 0⟩
  W := Vector.replicate 64 0
  buf := Vector.replicate 64 0
  bufcnt := 0
  len := 0
  dataIn := 0
  phase := .idle
  t := 0
  pend2 := false
  fin := false
  done := false
  err := false
  errcode := 0
  window := 0
  turns := []
  host := ⟨[], 0, [], []⟩

end Sys2Proof.Machine
end

