-- ==== Sys2Proof/Machine/Ops.lean ====
section
/-! DEFINITION. The named operations the commands and the micro-steps share: recording and clearing an error (R202, R208), LOAD (R144), one schedule word (R123), one round (R145), the fold (R147), PadFinal (R106), and reset (R220). -/

namespace Sys2Proof.Machine

/-- The code of an error in ERRCODE (R33, R201). -/
def ErrCode.code : ErrCode → BitVec 3
  | .busy => 1
  | .illegal => 2
  | .seq => 3

/-- The internal encoding of PHASE (R29). The host never sees it. -/
def Phase.code : Phase → BitVec 2
  | .idle => 0
  | .sched => 1
  | .round => 2
  | .fold => 3

/-- `raise Error(code)` (R202): the first error since INIT or reset is recorded, and nothing else changes. The core has
no trap (R207), so this is all that "taking an exception" does here. -/
def raiseError (e : ErrCode) (s : State) : State :=
  if s.err then s else { s with err := true, errcode := e.code }

/-- The clearing of ERR and ERRCODE, done by INIT and by reset only (R208). -/
def clearError (s : State) : State := { s with err := false, errcode := 0 }

/-- `BUF[c] <- b`. -/
def State.setBuf (c : Nat) (b : Byte) (s : State) : State :=
  { s with buf := s.buf.setIfInBounds c b }

/-- Word `t` of a block: `BE32(B[4t], B[4t+1], B[4t+2], B[4t+3])` (R120). -/
def blockWord (B : Vector Byte 64) (t : Nat) (h : t < 16) : Word :=
  be32 B[4 * t] B[4 * t + 1] B[4 * t + 2] B[4 * t + 3]

/-- W with words 0 to 15 taken from a block, the others kept (R120, R144). -/
def loadWords (B : Vector Byte 64) (W : Vector Word 64) : Vector Word 64 :=
  Vector.ofFn fun t : Fin 64 => if h : t.val < 16 then blockWord B t.val h else W[t.val]

/-- The working registers as a copy of the hash state, a <- H[0] to h <- H[7] (R22, R144). -/
def Working.ofHash (H : Vector Word 8) : Working :=
  ⟨H[0], H[1], H[2], H[3], H[4], H[5], H[6], H[7]⟩

/-- LOAD() (R144). -/
def load (s : State) : State :=
  { s with W := loadWords s.buf s.W, work := Working.ofHash s.H, phase := .sched, t := 16 }

/-- The recurrence of the schedule (R123): `σ1(w[t-2]) + w[t-7] + σ0(w[t-15]) + w[t-16]`, for t = 16..63. -/
def schedWord (W : Vector Word 64) (t : Nat) (_h : t < 64) : Word :=
  smallSigma1 W[t - 2] + W[t - 7] + smallSigma0 W[t - 15] + W[t - 16]

/-- T1 of a round, with `k` = K[t] and `w` = W[t] (R145). A wire, not state. -/
def roundT1 (k w : Word) (r : Working) : Word := r.h + bigSigma1 r.e + ch r.e r.f r.g + k + w

/-- T2 of a round (R145). A wire, not state. -/
def roundT2 (r : Working) : Word := bigSigma0 r.a + maj r.a r.b r.c

/-- One round: the new working registers, all from the old ones (R145). -/
def roundFn (k w : Word) (r : Working) : Working :=
  ⟨roundT1 k w r + roundT2 r, r.a, r.b, r.c, r.d + roundT1 k w r, r.e, r.f, r.g⟩

/-- The hash state with the working registers added (R147). -/
def foldHash (H : Vector Word 8) (r : Working) : Vector Word 8 :=
  #v[H[0] + r.a, H[1] + r.b, H[2] + r.c, H[3] + r.d, H[4] + r.e, H[5] + r.f, H[6] + r.g, H[7] + r.h]

/-- BUF with the byte 0x80 at index `n` and zeros above it (R106, the first two lines of PadFinal). -/
def padMarker (n : Nat) (buf : Vector Byte 64) : Vector Byte 64 :=
  Vector.ofFn fun j : Fin 64 => if j.val < n then buf[j.val] else if j.val = n then 0x80 else 0x00

/-- `BUF[56..63] <- BE64bytes(LEN)` (R106). -/
def putLength (len : BitVec 64) (buf : Vector Byte 64) : Vector Byte 64 :=
  Vector.ofFn fun j : Fin 64 => if j.val < 56 then buf[j.val] else lengthByte len (j.val - 56)

/-- `for j in 0..55: BUF[j] <- 0x00` (R106). -/
def zeroData (buf : Vector Byte 64) : Vector Byte 64 :=
  Vector.ofFn fun j : Fin 64 => if j.val < 56 then 0x00 else buf[j.val]

/-- PadFinal(), its two branches in R106's order: the length fits in this block, or the padding spills into a second
block, which waits in BUF with PEND2 set. -/
def padBlocks (s : State) : State :=
  if s.bufcnt.toNat ≤ 55 then
    let s1 := load { s with buf := putLength s.len (padMarker s.bufcnt.toNat s.buf) }
    { s1 with pend2 := false }
  else
    let s1 := load { s with buf := padMarker s.bufcnt.toNat s.buf }
    { s1 with buf := putLength s1.len (zeroData s1.buf), pend2 := true }

/-- PadFinal() (R106). -/
def padFinal (s : State) : State :=
  { padBlocks s with bufcnt := 0, fin := true }

/-- INIT's effect (R172): H from IV, the counters and every status bit cleared. -/
def initMessage (s : State) : State :=
  clearError { s with H := Config.IV, len := 0, bufcnt := 0, done := false, pend2 := false, fin := false }

/-- Reset (R220): every state element of the core to its reset value, whatever PHASE is. Where the window is mapped and
the host are not the core's state, and stay (log entry 14). -/
def resetCore (s : State) : State :=
  { State.reset with window := s.window, turns := s.turns, host := s.host }

end Sys2Proof.Machine
end

