-- ==== Sys2Proof/Machine/Flags.lean ====
section
/-! DEFINITION. BUSY (R34), the STATUS word (R37), and the checks of a command in their fixed order (R170, R206). The core has no arithmetic flags (R38). -/

namespace Sys2Proof.Machine

/-- BUSY is the value (PHASE ≠ IDLE) (R34). -/
def State.busy (s : State) : Bool := decide (s.phase ≠ .idle)

/-- A flag as a 32-bit word. -/
def bitWord (b : Bool) : Word := (BitVec.ofBool b).zeroExtend 32

/-- STATUS, assembled from state on every read (R37). -/
def State.status (s : State) : Word :=
  (s.bufcnt.zeroExtend 32 <<< 8) ||| (s.errcode.zeroExtend 32 <<< 4) ||| (bitWord s.err <<< 2)
    ||| (bitWord s.done <<< 1) ||| bitWord s.busy

/-- LEN_LO, LEN[31:0] (R51). -/
def State.lenLo (s : State) : Word := s.len.extractLsb' 0 32

/-- LEN_HI, LEN[63:32] (R51). -/
def State.lenHi (s : State) : Word := s.len.extractLsb' 32 32

/-- A command under its checks (R170, R206): BUSY first, and SEQ where the command needs an unfinished message
(`needsOpen`: UPDATE and FINAL, R205). A command that is refused changes nothing except ERR and ERRCODE. -/
def checked (needsOpen : Bool) (act : State → State) (s : State) : State :=
  if s.busy then raiseError .busy s
  else if needsOpen && s.done then raiseError .seq s
  else act s

/-- A word that decodes to ILLEGAL (R175): Error(BUSY) while BUSY = 1, else Error(ILLEGAL), and nothing else. -/
def refuseIllegal (s : State) : State := checked false (raiseError .illegal) s

end Sys2Proof.Machine
end

