-- ==== Sys2Proof/Machine/Operands.lean ====
section
/-! DEFINITION. UPDATE's operands (R57, R72, R74): its byte count and the bytes of DATA_IN, and the absorption of those bytes into BUF (R173). -/

namespace Sys2Proof.Machine

/-- The message bytes UPDATE n takes from DATA_IN, most significant byte first (R57). -/
def updateBytes (n : Nat) (w : Word) : List Byte := (List.range n).map (wordByte w)

/-- The body of UPDATE's loop for one byte at count `c` (R173): store it, and when the block is complete LOAD it and start
the next block. The count is a local of the accept, 0..63 between bytes. -/
def absorbByte (b : Byte) (c : Nat) (s : State) : State × Nat :=
  if c + 1 = 64 then (load (s.setBuf c b), 0) else (s.setBuf c b, c + 1)

/-- UPDATE's loop over its bytes, in message order (R173). -/
def absorbBytes : List Byte → Nat → State → State × Nat
  | [], c, s => (s, c)
  | b :: bs, c, s => absorbBytes bs (absorbByte b c s).2 (absorbByte b c s).1

/-- `LEN <- (LEN + 8·n) mod 2^64` (R105). -/
def addLength (n : Nat) (s : State) : State := { s with len := s.len + BitVec.ofNat 64 (8 * n) }

/-- Update(n) (R173). -/
def absorbUpdate (n : Nat) (s : State) : State :=
  let r := absorbBytes (updateBytes n s.dataIn) s.bufcnt.toNat (addLength n s)
  { r.1 with bufcnt := BitVec.ofNat 6 r.2 }

end Sys2Proof.Machine
end

