-- ==== Sys2Proof/Machine/Commands.lean ====
section
/-! DEFINITION. The meanings of the four commands (R171 to R174), each with its BUSY and SEQ checks (R170). -/

namespace Sys2Proof.Machine

/-- NOP (R171): no state change. -/
def execNop (s : State) : Host.Outcome State Fault Refusal := .next (checked false (fun s => s) s)

/-- INIT (R172): start a new message. -/
def execInit (s : State) : Host.Outcome State Fault Refusal := .next (checked false initMessage s)

/-- UPDATE n (R173): absorb n message bytes from DATA_IN. A count outside 1..4 is no command (R78). -/
def execUpdate (n : Nat) (s : State) : Host.Outcome State Fault Refusal :=
  if WellFormed (.update n) then .next (checked true (absorbUpdate n) s) else .refused .countOutOfRange

/-- FINAL (R174): pad and finish the message. -/
def execFinal (s : State) : Host.Outcome State Fault Refusal := .next (checked true padFinal s)

end Sys2Proof.Machine
end

