-- ==== Sys2Proof/Machine/Window.lean ====
section
/-! DEFINITION. The register window (R50 to R54): the register map, MemRead, MemWrite, the accept of a command word (R170), and the accesses that have no step (R52). -/

namespace Sys2Proof.Machine

/-- BASE, a multiple of 256 (R8, R50). -/
def State.base (s : State) : Nat := 256 * s.window

/-- The offset of a named register (R51). -/
def Reg.offset : Reg → Nat
  | .cmd => 0x00
  | .status => 0x04
  | .dataIn => 0x08
  | .lenLo => 0x0C
  | .lenHi => 0x10
  | .digest i => 0x20 + 4 * i.val

/-- The register at an offset (R51). `none` is a reserved offset. -/
def Reg.atOffset (off : Nat) : Option Reg :=
  if off = 0x00 then some .cmd
  else if off = 0x04 then some .status
  else if off = 0x08 then some .dataIn
  else if off = 0x0C then some .lenLo
  else if off = 0x10 then some .lenHi
  else if h : 0x20 ≤ off ∧ off ≤ 0x3C ∧ off % 4 = 0 then some (.digest ⟨(off - 0x20) / 4, by omega⟩)
  else none

/-- The read value of a register (R51). CMD is write-only and reads 0. -/
def readReg (s : State) : Reg → Word
  | .cmd => 0x00000000
  | .status => s.status
  | .dataIn => s.dataIn
  | .lenLo => s.lenLo
  | .lenHi => s.lenHi
  | .digest i => s.H[i.val]

/-- MemRead(BASE + off, 4) for an aligned offset (R53). Reserved offsets read 0 (log entry 11). -/
def memRead (s : State) (off : Nat) : Word :=
  match Reg.atOffset off with
  | some r => readReg s r
  | none => 0x00000000

/-- Accept(w) (R170): one atomic step. The BUSY and SEQ checks stand in the commands' own meanings (log entry 6). -/
def accept (w : Word) (s : State) : Host.Outcome State Fault Refusal :=
  match decode w with
  | .legal i => exec i s
  | .illegal _ => .next (refuseIllegal s)

/-- The effect of a write on a register (R54): CMD accepts, DATA_IN stores, every other register ignores it. -/
def writeReg (r : Reg) (v : Word) (s : State) : Host.Outcome State Fault Refusal :=
  match r with
  | .cmd => accept v s
  | .status => .next s
  | .dataIn => .next { s with dataIn := v }
  | .lenLo => .next s
  | .lenHi => .next s
  | .digest _ => .next s

/-- MemWrite(BASE + off, 4, v) for an aligned offset (R54). Reserved offsets ignore writes. -/
def memWrite (off : Nat) (v : Word) (s : State) : Host.Outcome State Fault Refusal :=
  match Reg.atOffset off with
  | some r => writeReg r v s
  | none => .next s

/-- A host access of `size` bytes at `addr`, which goes on with its offset where it is an aligned 32-bit access to the
window (R50). Any other width and a misaligned access have no step (R52); an address outside the window is none of this
core's (log entry 7). -/
def atWindow (addr size : Nat) (s : State) (go : Nat → Host.Outcome State Fault Refusal) :
    Host.Outcome State Fault Refusal :=
  if addr < s.base ∨ s.base + 256 ≤ addr then .fault .outsideWindow
  else if size ≠ 4 then .refused .accessWidth
  else if (addr - s.base) % 4 ≠ 0 then .refused .accessMisaligned
  else go (addr - s.base)

/-- The host's side moves on; the core's state stays. -/
def State.setHost (hs : HostSide) (s : State) : State := { s with host := hs }

/-- The host notes a value one of its reads returned (R230). -/
def observe (v : Word) (s : State) : State := s.setHost { s.host with reads := s.host.reads ++ [v] }

/-- A host read: the value is returned to the host and no register changes (R53). -/
def hostRead (addr size : Nat) (s : State) : Host.Outcome State Fault Refusal :=
  atWindow addr size s fun off => .next (observe (memRead s off) s)

/-- A host write (R54). -/
def hostWrite (addr size : Nat) (v : Word) (s : State) : Host.Outcome State Fault Refusal :=
  atWindow addr size s fun off => memWrite off v s

end Sys2Proof.Machine
end

