-- ==== Sys2Proof/Machine/Script.lean ====
section
/-! DEFINITION. The host's programs (R78 to R80): one statement of a program as a step of the host, and the expansion of commands and pseudo-instructions into statements. -/

namespace Sys2Proof.Machine

/-- The value of host variable `x`; before any RD of it a free value (log entry 9). -/
def HostSide.var (x : Nat) (hs : HostSide) : Word :=
  match hs.vars.find? (fun p => p.1 == x) with
  | some p => p.2
  | none => Config.unsetVar x

/-- `x <- v` in the host's variables. -/
def HostSide.setVar (x : Nat) (v : Word) (hs : HostSide) : HostSide :=
  { hs with vars := (x, v) :: hs.vars.filter (fun p => p.1 != x) }

/-- The position after the first `label l:` of a program: "`label:` names the next statement" (R79). -/
def labelPos (l : Nat) : List Stmt → Option Nat
  | [] => none
  | st :: rest => if st = .label l then some 1 else (labelPos l rest).map (· + 1)

/-- The host goes to statement `p` of its program. -/
def goto (p : Nat) (s : State) : State := s.setHost { s.host with pos := p }

/-- The host goes to its next statement. -/
def advance (s : State) : State := goto (s.host.pos + 1) s

/-- The program has ended: it stands at HALT (R79, R230), or, which the spec leaves open and the model chooses (DESIGN CHOICE,
log entry 5), past its last statement. -/
def HostSide.ended (hs : HostSide) : Bool :=
  match hs.script[hs.pos]? with
  | none => true
  | some st => decide (st = .halt)

/-- One statement (R79), an access being one atomic step. -/
def runStmt (st : Stmt) (s : State) : Host.Outcome State Fault Refusal :=
  match st with
  | .wr r v => hostWrite (s.base + r.offset) 4 v (advance s)
  | .rd x r => hostRead (s.base + r.offset) 4 (advance (s.setHost (s.host.setVar x (readReg s r))))
  | .bnz x mask l =>
    if s.host.var x &&& mask ≠ 0 then
      match labelPos l s.host.script with
      | some p => .next (goto p s)
      | none => .refused .noSuchLabel
    else .next (advance s)
  | .label _ => .next (advance s)
  | .halt => .next s

/-- The host's turn with its program. A turn at HALT, and one past the last statement of a program without HALT, on which
the spec is silent, leave all as it is (DESIGN CHOICE, log entry 5). -/
def scriptStep (s : State) : Host.Outcome State Fault Refusal :=
  match s.host.script[s.host.pos]? with
  | none => .next s
  | some st => runStmt st s

/-- A command as a statement: "The statement stands for `MemWrite(BASE + 0x00, 4, encoding)`" (R78). `UPDATE 0` and
`UPDATE 5` are no syntax, so they are no statement. -/
def command (i : Instr) : Option Stmt := (encode i).map (Stmt.wr .cmd)

/-- A host-program item: a statement, a command, or a pseudo-instruction of R80. -/
inductive Item where
  | stmt (st : Stmt)
  | command (i : Instr)
  | wait
  | push (n : Nat) (v : Word)
  | pushw (v : Word)
  | readDigest
  | hashMsg (m : List Byte)
  deriving DecidableEq, Repr

/-- The variable WAIT reads STATUS into; d0..d7 are the variables 0..7 (log entry 8). -/
def waitVar : Nat := 8

/-- WAIT with the fresh label `l` (R80). -/
def waitStmts (l : Nat) : List Stmt := [.label l, .rd waitVar .status, .bnz waitVar 0x1 l]

/-- PUSH n, v (R80): a write to DATA_IN, then UPDATE n where that is a command. -/
def pushStmts (n : Nat) (v : Word) : Option (List Stmt) := (command (.update n)).map fun c => [.wr .dataIn v, c]

/-- READDIGEST (R80): d0..d7 from DIGEST0..DIGEST7, in order. -/
def readDigestStmts : List Stmt := (List.finRange 8).map fun i => .rd i.val (.digest i)

/-- The groups of up to 4 consecutive bytes of a message, in order (R80). -/
def groups4 : List Byte → List (List Byte)
  | [] => []
  | [a] => [[a]]
  | [a, b] => [[a, b]]
  | [a, b, c] => [[a, b, c]]
  | a :: b :: c :: d :: rest => [a, b, c, d] :: groups4 rest

/-- `BE32(g ++ zeros(4−|g|))` of a group of up to 4 bytes (R80). -/
def groupWord (g : List Byte) : Word := be32 (g.getD 0 0) (g.getD 1 0) (g.getD 2 0) (g.getD 3 0)

/-- `PUSH |g|, BE32(g ++ zeros(4−|g|))` and `WAIT` for each group, with labels from `l` on (R80). -/
def pushGroups : Nat → List (List Byte) → Option (List Stmt)
  | _, [] => some []
  | l, g :: gs => do
    let push ← pushStmts g.length (groupWord g)
    let others ← pushGroups (l + 1) gs
    some (push ++ waitStmts l ++ others)

/-- A whole message sent as the groups `gs`, each in one UPDATE, with a WAIT after every command (R80, R178); labels from
`l` on. -/
def hashGroupsStmts (l : Nat) (gs : List (List Byte)) : Option (List Stmt) := do
  let start ← command .init
  let pushes ← pushGroups (l + 1) gs
  let finish ← command .final
  some ([start] ++ waitStmts l ++ pushes ++ [finish] ++ waitStmts (l + 1 + gs.length) ++ readDigestStmts)

/-- HASHMSG m with labels from `l` on (R80). -/
def hashMsgStmts (l : Nat) (m : List Byte) : Option (List Stmt) := hashGroupsStmts l (groups4 m)

/-- How many fresh labels an item takes. -/
def Item.labels : Item → Nat
  | .stmt _ => 0
  | .command _ => 0
  | .wait => 1
  | .push _ _ => 0
  | .pushw _ => 0
  | .readDigest => 0
  | .hashMsg m => (groups4 m).length + 2

/-- The statements of an item, its fresh labels numbered from `l` on (R78, R80). -/
def Item.expand (l : Nat) : Item → Option (List Stmt)
  | .stmt st => some [st]
  | .command i => (Sys2Proof.Machine.command i).map fun c => [c]
  | .wait => some (waitStmts l)
  | .push n v => pushStmts n v
  | .pushw v => pushStmts 4 v
  | .readDigest => some readDigestStmts
  | .hashMsg m => hashMsgStmts l m

/-- One more than the label a statement names, where it names one. -/
def Stmt.labelBound : Stmt → Nat
  | .wr _ _ => 0
  | .rd _ _ => 0
  | .bnz _ _ l => l + 1
  | .label l => l + 1
  | .halt => 0

/-- The label bound of a statement the program writes itself; a pseudo-instruction names no label. -/
def Item.labelBound : Item → Nat
  | .stmt st => st.labelBound
  | .command _ => 0
  | .wait => 0
  | .push _ _ => 0
  | .pushw _ => 0
  | .readDigest => 0
  | .hashMsg _ => 0

/-- A label number above every label that the program itself names: "with Lw a fresh label" (R80). -/
def freshLabel : List Item → Nat
  | [] => 0
  | it :: rest => max it.labelBound (freshLabel rest)

/-- The items expanded one after another, their labels numbered from `l` on. -/
def expandFrom : Nat → List Item → Option (List Stmt)
  | _, [] => some []
  | l, it :: rest => do
    let sts ← it.expand l
    let others ← expandFrom (l + it.labels) rest
    some (sts ++ others)

/-- A host program as statements (R78 to R80), each pseudo-instruction's labels fresh in the whole program. A program with an
UPDATE or PUSH of another count than 1 to 4 is none. -/
def expandProgram (p : List Item) : Option (List Stmt) := expandFrom (freshLabel p) p

/-- `s` with the host about to start the program `p`. -/
def State.withProgram (p : List Stmt) (s : State) : State :=
  { s with host := { s.host with script := p, pos := 0 } }

end Sys2Proof.Machine
end

