-- ==== Sys2Proof/Machine/Sequencer.lean ====
section
/-! DEFINITION. The core agent's micro-steps SCHED(t), ROUND(t) and FOLD (R124, R146, R147), and which of them is enabled (R29). -/

namespace Sys2Proof.Machine

/-- SCHED(t) with t = T (R124). -/
def schedStep (s : State) : State :=
  let s1 := { s with W := s.W.set s.t.toNat (schedWord s.W s.t.toNat s.t.isLt) s.t.isLt }
  if s.t = 63 then { s1 with phase := .round, t := 0 } else { s1 with t := s.t + 1 }

/-- ROUND(t) with t = T (R146). -/
def roundStep (s : State) : State :=
  let s1 := { s with work := roundFn (Config.K[s.t.toNat]'s.t.isLt) (s.W[s.t.toNat]'s.t.isLt) s.work }
  if s.t = 63 then { s1 with phase := .fold } else { s1 with t := s.t + 1 }

/-- The sequencing part of FOLD (R147): the second padding block, the end of FINAL, or the end of an UPDATE's block. -/
def afterFold (s : State) : State :=
  if s.pend2 then load { s with pend2 := false }
  else if s.fin then { s with fin := false, done := true, phase := .idle, t := 0 }
  else { s with phase := .idle, t := 0 }

/-- FOLD (R147). A LOAD in it reads the H just written (R13). -/
def foldStep (s : State) : State := afterFold { s with H := foldHash s.H s.work }

/-- The core agent's turn: the micro-step that PHASE and T select (R29). With PHASE = IDLE no step is enabled and all
state is kept (R215, log entry 5). -/
def coreStep (s : State) : Host.Outcome State Fault Refusal :=
  match s.phase with
  | .idle => .next s
  | .sched => if 16 ≤ s.t.toNat then .next (schedStep s) else .fault .schedIndexBelow16
  | .round => .next (roundStep s)
  | .fold => .next (foldStep s)

/-- `k` micro-steps of the core with no access between them. -/
def coreSteps : Nat → State → Host.Outcome State Fault Refusal
  | 0, s => .next s
  | k + 1, s =>
    match coreStep s with
    | .next s' => coreSteps k s'
    | .fault r => .fault r
    | .refused r => .refused r

end Sys2Proof.Machine
end

