-- ==== Sys2Proof/Machine/Agents.lean ====
section
/-! DEFINITION. Whose step comes next (R15, R61): the first of the turns in State, or, when none is listed, the core while a job runs and else the host's program. -/

namespace Sys2Proof.Machine

/-- One turn (R15): each is one atomic step. -/
def serve (tu : Turn) (s : State) : Host.Outcome State Fault Refusal :=
  match tu with
  | .core => coreStep s
  | .script => scriptStep s
  | .read addr size => hostRead addr size s
  | .write addr size v => hostWrite addr size v s
  | .reset => .next (resetCore s)

/-- With no turn listed: the core's micro-step while PHASE ≠ IDLE, which is the fairness of R17 and R227, else the host's
next statement (log entry 4). -/
def freeTurn (s : State) : Host.Outcome State Fault Refusal :=
  if s.busy then coreStep s else scriptStep s

/-- The next turn is taken off the list. -/
def State.popTurn (s : State) : State := { s with turns := s.turns.tail }

/-- One step of the whole: the next turn is taken off the list and served. -/
def takeTurn (s : State) : Host.Outcome State Fault Refusal :=
  match s.turns with
  | [] => freeTurn s
  | tu :: _ => serve tu s.popTurn

end Sys2Proof.Machine
end

