-- ==== Sys2Proof/Machine/Step.lean ====
section
/-! DEFINITION. step, and the placing of a command so that the next step runs it. -/

namespace Sys2Proof.Machine

/-- One step: one micro-step of the core, one access or statement of the host, or a reset (R15). -/
def step (s : State) : Host.Outcome State Fault Refusal := takeTurn s

/-- `s` with the host about to write the command word `w` (its bits from `nbits` on zero) to CMD. The core fetches nothing
(R36): a command reaches it as a host write, so the very next step accepts exactly that word (log entry 10). -/
def State.withFetchWord (s : State) (nbits w : Nat) : State :=
  { s with turns := .write (s.base + Reg.cmd.offset) 4 (BitVec.ofNat 32 (w % 2 ^ nbits)) :: s.turns }

end Sys2Proof.Machine
end

