-- ==== Sys2Proof/Machine/Platform.lean ====
section
/-! DEFINITION. Several core instances on one platform (R66, R213): they share nothing but the constant table K, so a step is one instance's step. -/

namespace Sys2Proof.Machine

/-- `n` core instances, each with its own window and its own state (R66). They have no identifiers beyond their place
here (R213). -/
abbrev Platform (n : Nat) := Vector State n

/-- Instance `i` takes a step; the others keep their state (R66, log entry 15). -/
def platformStep {n : Nat} (i : Fin n) (p : Platform n) : Host.Outcome (Platform n) Fault Refusal :=
  match step p[i.val] with
  | .next s => .next (p.set i.val s)
  | .fault r => .fault r
  | .refused r => .refused r

end Sys2Proof.Machine
end

