-- ==== Sys2Proof/Machine/Reference.lean ====
section
/-! DEFINITION. The reference functions of the algorithm, written from the spec's own text and apart from the sequencer: padding and blocks (R100 to R104), the schedule (R123) and its sliding window (R125), compression (R148), the digest and its text (R160 to R163), and the collapsed job (R229). -/

namespace Sys2Proof.Machine

/-- The `while` of pad (R101), with `fuel` for its at most 63 turns: a zero byte until `(8·|p| + 64) mod 512 = 0`. -/
def padZeros : Nat → List Byte → List Byte
  | 0, p => p
  | fuel + 1, p => if (8 * p.length + 64) % 512 = 0 then p else padZeros fuel (p ++ [0x00])

/-- pad(m), the source's BitPadder (R101); the length field is `(8·L) mod 2^64` (R108). -/
def pad (m : List Byte) : List Byte :=
  padZeros 64 (m ++ [0x80]) ++ be64Bytes (BitVec.ofNat 64 (8 * m.length))

/-- The number of zero bytes that pad inserts for a message of `L` bytes, `(55 − L) mod 64` (R102). -/
def zeroCount (L : Nat) : Nat := (55 + 63 * L) % 64

/-- The number of blocks of a message of `L` bytes (R103). -/
def blockCount (L : Nat) : Nat := (L + 8) / 64 + 1

/-- Block `i` of a byte sequence, bytes 64·i to 64·i + 63 (R104). -/
def blockAt (p : List Byte) (i : Nat) : Vector Byte 64 := Vector.ofFn fun j : Fin 64 => p.getD (64 * i + j.val) 0

/-- blocks(p), the source's BlockParser (R104). -/
def blocks (p : List Byte) : List (Vector Byte 64) := (List.range (p.length / 64)).map (blockAt p)

/-- The first `k` words from index 16 on, each by the recurrence of R123. -/
def extendWords : Nat → Vector Word 64 → Vector Word 64
  | 0, W => W
  | k + 1, W =>
    let W' := extendWords k W
    if h : 16 + k < 64 then W'.set (16 + k) (schedWord W' (16 + k) h) h else W'

/-- Schedule(B) (R123). -/
def scheduleOf (B : Vector Byte 64) : Vector Word 64 := extendWords 48 (loadWords B (Vector.replicate 64 0))

/-- The first `k` rounds, t = 0 to k − 1, with schedule `W` (R145). -/
def roundsFrom (W : Vector Word 64) : Nat → Working → Working
  | 0, r => r
  | k + 1, r =>
    if h : k < 64 then roundFn Config.K[k] W[k] (roundsFrom W k r) else roundsFrom W k r

/-- Compress(H, B) (R148). -/
def compress (H : Vector Word 8) (B : Vector Byte 64) : Vector Word 8 :=
  foldHash H (roundsFrom (scheduleOf B) 64 (Working.ofHash H))

/-- SHA256state(m) (R163). -/
def sha256State (m : List Byte) : Vector Word 8 := (blocks (pad m)).foldl compress Config.IV

/-- digest(H), 32 bytes (R160). -/
def digestBytes (H : Vector Word 8) : List Byte := H.toList.flatMap be32Bytes

/-- The lowercase hexadecimal digit of four bits (R161). -/
def hexDigit (n : BitVec 4) : Char :=
  ['0', '1', '2', '3', '4', '5', '6', '7', '8', '9', 'a', 'b', 'c', 'd', 'e', 'f'].getD n.toNat '0'

/-- The 8 lowercase hex digits of a word: character k is the digit of `w[31−4k : 28−4k]` (R161). -/
def hexWord (w : Word) : List Char := (List.range 8).map fun k => hexDigit (w.extractLsb' (28 - 4 * k) 4)

/-- hex(H), the 64 characters of the digest, as a host renders it (R161). -/
def hexDigest (H : Vector Word 8) : List Char := H.toList.flatMap hexWord

/-- short(H), the first 8 characters of hex(H) (R162). -/
def shortHash (H : Vector Word 8) : List Char := (hexDigest H).take 8

/-- hashBytes(m) (R163). -/
def hashBytes (m : List Byte) : List Char := hexDigest (sha256State m)

/-- A sliding window of 16 schedule words moved on by one word, as an implementation may keep it (R125). -/
def slideWindow (v : Vector Word 16) : Vector Word 16 :=
  Vector.ofFn fun j : Fin 16 =>
    if h : j.val < 15 then v[j.val + 1] else smallSigma1 v[14] + v[9] + smallSigma0 v[1] + v[0]

/-- The sliding window of block `B` after `k` moves: it starts at the block's own 16 words (R125). -/
def windowAfter (B : Vector Byte 64) : Nat → Vector Word 16
  | 0 => Vector.ofFn fun j : Fin 16 => blockWord B j.val j.isLt
  | k + 1 => slideWindow (windowAfter B k)

/-- A whole job as one step (R229), from a state just LOADed: all SCHED and ROUND steps, then FOLD. -/
def collapsedJob (s : State) : State :=
  let W := extendWords 48 s.W
  foldStep { s with W := W, work := roundsFrom W 64 s.work, phase := .fold, t := 63 }

end Sys2Proof.Machine
end

