-- ==== Sys2Proof/Safety.lean ====
section
/-! DEFINITION. What counts as a legal state (the invariants of R39), a completed hash and a valid digest (R230, R225, R208), and a host that keeps the contract (R177, R223). -/

namespace Sys2Proof.Machine

/-- The invariants of R39, with ERRCODE's range (R33). Item 1 of R39 holds by BUFCNT's type. `finCount` (FIN = 1 implies
BUFCNT = 0) is what makes R39's item 5 inductive, and `lenWhole` and `lenBytes` are R39's item 7 read in LEN itself: LEN
counts whole bytes and BUFCNT is that count modulo 64 (log entry 19). -/
structure State.Inv (s : State) : Prop where
  schedIndex : s.phase = .sched → 16 ≤ s.t.toNat
  pendFin : s.pend2 = true → s.fin = true ∧ s.phase ≠ .idle
  finBusy : s.fin = true → s.phase ≠ .idle
  finCount : s.fin = true → s.bufcnt = 0
  doneIdle : s.done = true → s.phase = .idle ∧ s.bufcnt = 0
  errIff : s.err = false ↔ s.errcode = 0
  errRange : s.errcode.toNat ≤ 3
  lenWhole : s.len.toNat % 8 = 0
  lenBytes : s.fin = false → s.done = false → s.bufcnt.toNat = s.len.toNat / 8 % 64
  idleT : s.phase = .idle → s.t = 0

/-- A completed hash (R230): PHASE = IDLE and DONE = 1. -/
def State.completed (s : State) : Prop := s.phase = .idle ∧ s.done = true

/-- The host may take H as the digest: DONE = 1 and ERR = 0 (R177, R208, R225). -/
def State.digestValid (s : State) : Prop := s.done = true ∧ s.err = false

/-- The write, as offset and word, that the next statement of the host's program makes. -/
def HostSide.nextWrite (hs : HostSide) : Option (Nat × Word) :=
  match hs.script[hs.pos]? with
  | some (.wr r v) => some (r.offset, v)
  | _ => none

/-- The write, as offset and word, that the next step makes on the window: a listed aligned 32-bit host write, or a
statement of the host's program. -/
def State.nextWrite (s : State) : Option (Nat × Word) :=
  match s.turns with
  | .write addr size v :: _ =>
    if s.base ≤ addr ∧ addr < s.base + 256 ∧ size = 4 ∧ (addr - s.base) % 4 = 0 then some (addr - s.base, v) else none
  | .script :: _ => s.host.nextWrite
  | [] => if s.busy then none else s.host.nextWrite
  | _ => none

/-- The word the next step writes to CMD, if it writes one. -/
def State.nextCmdWord (s : State) : Option Word :=
  match s.nextWrite with
  | some (0, w) => some w
  | _ => none

/-- The next step is the core's turn. -/
def State.coreMoves (s : State) : Bool :=
  match s.turns with
  | .core :: _ => true
  | [] => s.busy
  | _ => false

/-- The next step is a reset (R220). -/
def State.resets (s : State) : Bool :=
  match s.turns with
  | .reset :: _ => true
  | _ => false

/-- The command the next step accepts and does not refuse (R176). -/
def State.accepts (s : State) : Option Instr :=
  match s.nextCmdWord with
  | none => none
  | some w =>
    match decode w with
    | .illegal _ => none
    | .legal i =>
      if s.busy then none
      else match i with
        | .nop => some .nop
        | .init => some .init
        | .update n => if s.done then none else some (.update n)
        | .final => if s.done then none else some .final

/-- The error the next step raises by refusing a command, in the fixed order of the checks (R201, R206). -/
def State.refuses (s : State) : Option ErrCode :=
  match s.nextCmdWord with
  | none => none
  | some w =>
    if s.busy then some .busy
    else match decode w with
      | .illegal _ => some .illegal
      | .legal .nop => none
      | .legal .init => none
      | .legal (.update _) => if s.done then some .seq else none
      | .legal .final => if s.done then some .seq else none

/-- The message bytes the next step takes from DATA_IN (R57, R173). -/
def State.takenBytes (s : State) : List Byte :=
  match s.accepts with
  | some (.update n) => updateBytes n s.dataIn
  | _ => []

/-- The host keeps the duty of R177 and R223 at its next step: it writes CMD only while BUSY = 0. -/
def State.keepsContract (s : State) : Prop := s.nextCmdWord.isSome = true → s.busy = false

/-- The hash state after the first `k` full blocks of a message (R148, R149). -/
def chainValue (m : List Byte) (k : Nat) : Vector Word 8 :=
  ((List.range k).map (blockAt m)).foldl compress Config.IV

/-- How far the job on the last full block of `m` has come (R124, R146, R148), `W0` being what W held before its LOAD. -/
def JobOn (m : List Byte) (W0 : Vector Word 64) (s : State) : Prop :=
  let L := loadWords (blockAt m (m.length / 64 - 1)) W0
  let r0 := Working.ofHash (chainValue m (m.length / 64 - 1))
  match s.phase with
  | .idle => False
  | .sched => 16 ≤ s.t.toNat ∧ s.W = extendWords (s.t.toNat - 16) L ∧ s.work = r0
  | .round => s.W = extendWords 48 L ∧ s.work = roundsFrom (extendWords 48 L) s.t.toNat r0
  | .fold => s.W = extendWords 48 L ∧ s.work = roundsFrom (extendWords 48 L) 64 r0

/-- `s` holds the message `m` absorbed so far since INIT or reset, and FINAL has not been accepted: LEN counts its bits
modulo 2^64, BUF holds its last partial block, and H is the hash state after its full blocks, or the last full block's job
is running (R26, R27, R28, R107, R149). -/
structure Represents (m : List Byte) (s : State) : Prop where
  notDone : s.done = false
  notFinal : s.fin = false
  noPending : s.pend2 = false
  bits : s.len = BitVec.ofNat 64 (8 * m.length)
  count : s.bufcnt.toNat = m.length % 64
  held : ∀ (j : Nat) (h : j < 64), j < m.length % 64 → s.buf[j] = m.getD (64 * (m.length / 64) + j) 0
  chainIdle : s.phase = .idle → s.H = chainValue m (m.length / 64)
  chainBusy : s.phase ≠ .idle →
    64 ≤ m.length ∧ s.H = chainValue m (m.length / 64 - 1) ∧ ∃ W0, JobOn m W0 s

/-- A run of steps, each taken in a state that meets `ok` (R61: any interleaving of the agents). -/
inductive Runs (ok : State → Prop) : State → State → Prop where
  | refl (s : State) : Runs ok s s
  | tail {s t u : State} (before : Runs ok s t) (here : ok t) (next : step t = .next u) : Runs ok s u

/-- A run in which the message bytes `m` are accepted in order, and neither INIT, nor FINAL, nor a reset takes effect
(R107, R164, R178). Reads, writes, refused commands and micro-steps may come anywhere in it. -/
inductive Absorbs : State → List Byte → State → Prop where
  | refl (s : State) : Absorbs s [] s
  | tail {s t u : State} {m : List Byte} (before : Absorbs s m t) (noReset : t.resets = false)
      (noInit : t.accepts ≠ some .init) (noFinal : t.accepts ≠ some .final) (next : step t = .next u) :
      Absorbs s (m ++ t.takenBytes) u

end Sys2Proof.Machine
end

