-- ==== Sys2Proof/Certificates/Slice0/Obligations.lean ====
section
/-! DEFINITION. The statements for the provers, from the numbered rules of spec/. -/

open Sys2Proof Sys2Proof.Machine

/-! ### Encoding (30_encoding.md) -/

/-- A well-formed command has a word, and decoding that word gives the command, for every count UPDATE admits (R72, R73,
R76). -/
def Obligations.DecodeInvertsEncode : Prop :=
  ∀ i : Instr, WellFormed i → ∃ w, encode i = some w ∧ decode w = .legal i

/-- A word that decodes to a command is that command's word, bit for bit: no bit is ignored (R76, R77). -/
def Obligations.EncodeInvertsDecode : Prop :=
  ∀ (w : Word) (i : Instr), decode w = .legal i → WellFormed i ∧ encode i = some w

/-- A word encodes a command exactly when it matches that command's row, and no two rows match the same word (R73). -/
def Obligations.CommandsAreTheRowsOfTheTable : Prop :=
  (∀ w : Word, (∃ i, decode w = .legal i) ↔ ∃ r ∈ opcodeRows, r.covers w = true) ∧
  (∀ (w : Word) (i : Instr), decode w = .legal i ↔
    i.row.covers w = true ∧ ∀ n, i = .update n → n = byteCount w) ∧
  (∀ (w : Word) (r r' : Row), r ∈ opcodeRows → r' ∈ opcodeRows → r.covers w = true → r'.covers w = true → r = r')

/-- The illegal words are those with OP in 4..15, those with a bit of RSV set, and NOP, INIT or FINAL with NB ≠ 00; one
accepted while BUSY = 0 records ILLEGAL and has no other effect (R75, R175). -/
def Obligations.IllegalWordsAreTheReservedOnes : Prop :=
  (∀ w : Word, (∃ why, decode w = .illegal why) ↔
    4 ≤ (w.extractLsb' 0 4).toNat ∨ w.extractLsb' 6 26 ≠ 0 ∨
      (w.extractLsb' 0 4 ≠ 2 ∧ w.extractLsb' 4 2 ≠ 0)) ∧
  (∀ (w : Word) (s : State) (why : IllegalWord), s.phase = .idle → decode w = .illegal why →
    memWrite 0 w s = .next { s with err := true, errcode := if s.err then s.errcode else 2 })

/-- Words written out from R73, and reserved words of R75, read by the decoder (95_test_vectors V-CMD-1). That a word is
illegal is R76's; the name of the group it is put in is the model's choice (log entry 13). -/
def Obligations.WrittenWordsDecode : Prop :=
  decode 0b00000000000000000000000000000000 = .legal .nop ∧
  decode 0b00000000000000000000000000000001 = .legal .init ∧
  decode 0b00000000000000000000000000000010 = .legal (.update 1) ∧
  decode 0b00000000000000000000000000110010 = .legal (.update 4) ∧
  decode 0b00000000000000000000000000000011 = .legal .final ∧
  decode 0b00000000000000000000000000010011 = .illegal .countOnOtherCommand ∧
  decode 0b10000000000000000000000000000001 = .illegal .reservedBits

/-! ### Commands (45_commands.md) -/

/-- NOP, 0x00000000, changes nothing while BUSY = 0, also when DONE = 1; while BUSY = 1 it records BUSY and changes nothing
else (R171). -/
def Obligations.NopChangesNothing : Prop :=
  decode 0x00000000 = .legal .nop ∧ ∀ s : State,
    (s.phase = .idle → exec .nop s = .next s) ∧
    (s.phase ≠ .idle → exec .nop s = .next { s with err := true, errcode := if s.err then s.errcode else 1 })

/-- INIT, 0x00000001, while BUSY = 0 loads H from IV, clears LEN, BUFCNT, DONE, ERR, ERRCODE, PEND2 and FIN, and leaves everything else;
while BUSY = 1 it records BUSY and changes nothing else (R172). -/
def Obligations.InitStartsANewMessage : Prop :=
  decode 0x00000001 = .legal .init ∧ ∀ s : State,
    (s.phase = .idle → exec .init s = .next { s with
      H := Config.IV, len := 0, bufcnt := 0, done := false, err := false, errcode := 0, pend2 := false, fin := false }) ∧
    (s.phase ≠ .idle → exec .init s = .next { s with err := true, errcode := if s.err then s.errcode else 1 })

/-- UPDATE n that does not fill BUF: the n top bytes of DATA_IN go to BUF from index BUFCNT on, BUFCNT and LEN advance,
and nothing else changes (R173, R57, R105). -/
def Obligations.UpdateBelowABlockStoresItsBytes : Prop :=
  ∀ (n : Nat) (s : State), 1 ≤ n → n ≤ 4 → s.phase = .idle → s.done = false → s.bufcnt.toNat + n < 64 →
    ∃ t, exec (.update n) s = .next t ∧
      t = { s with buf := t.buf, bufcnt := s.bufcnt + BitVec.ofNat 6 n, len := s.len + BitVec.ofNat 64 (8 * n) } ∧
      ∀ (j : Nat) (h : j < 64), t.buf[j] =
        if s.bufcnt.toNat ≤ j ∧ j < s.bufcnt.toNat + n then s.dataIn.extractLsb' (24 - 8 * (j - s.bufcnt.toNat)) 8
        else s.buf[j]

/-- UPDATE n that fills BUF: the completed block is LOADed (its words in W[0..15], H in a..h, PHASE = SCHED, T = 16), the
bytes left over start the next block at BUF[0], BUFCNT counts them, LEN advances by 8n, and nothing else changes
(R173, R144, R120). -/
def Obligations.UpdateThatFillsABlockLoadsIt : Prop :=
  ∀ (n : Nat) (s : State), 1 ≤ n → n ≤ 4 → s.phase = .idle → s.done = false → 64 ≤ s.bufcnt.toNat + n →
    ∃ t, exec (.update n) s = .next t ∧
      (let block : Vector Byte 64 := Vector.ofFn fun j : Fin 64 =>
        if j.val < s.bufcnt.toNat then s.buf[j.val] else s.dataIn.extractLsb' (24 - 8 * (j.val - s.bufcnt.toNat)) 8
      t = { s with
        buf := t.buf, W := t.W, work := ⟨s.H[0], s.H[1], s.H[2], s.H[3], s.H[4], s.H[5], s.H[6], s.H[7]⟩,
        phase := .sched, t := 16, bufcnt := BitVec.ofNat 6 (s.bufcnt.toNat + n - 64),
        len := s.len + BitVec.ofNat 64 (8 * n) } ∧
      (∀ (i : Nat) (h : i < 16), t.W[i] = block[4 * i] ++ block[4 * i + 1] ++ block[4 * i + 2] ++ block[4 * i + 3]) ∧
      (∀ (i : Nat) (h : i < 64), 16 ≤ i → t.W[i] = s.W[i]) ∧
      (∀ (j : Nat) (h : j < 64), t.buf[j] =
        if j < s.bufcnt.toNat + n - 64 then s.dataIn.extractLsb' (24 - 8 * (64 - s.bufcnt.toNat + j)) 8 else block[j]))

/-- FINAL with BUFCNT ≤ 55 pads BUF with 0x80, zeros and the length, LOADs that block, sets FIN, clears BUFCNT and PEND2,
and changes nothing else (R174, R106). -/
def Obligations.FinalPadsIntoOneBlock : Prop :=
  ∀ s : State, s.phase = .idle → s.done = false → s.bufcnt.toNat ≤ 55 →
    ∃ t, exec .final s = .next t ∧
      t = { s with
        buf := t.buf, W := t.W, work := ⟨s.H[0], s.H[1], s.H[2], s.H[3], s.H[4], s.H[5], s.H[6], s.H[7]⟩,
        phase := .sched, t := 16, pend2 := false, bufcnt := 0, fin := true } ∧
      (∀ (j : Nat) (h : j < 64), t.buf[j] =
        if j < s.bufcnt.toNat then s.buf[j] else if j = s.bufcnt.toNat then 0x80 else if j < 56 then 0x00
        else s.len.extractLsb' (56 - 8 * (j - 56)) 8) ∧
      (∀ (i : Nat) (h : i < 16), t.W[i] = t.buf[4 * i] ++ t.buf[4 * i + 1] ++ t.buf[4 * i + 2] ++ t.buf[4 * i + 3]) ∧
      (∀ (i : Nat) (h : i < 64), 16 ≤ i → t.W[i] = s.W[i]) ∧
      t.W[14] = s.len.extractLsb' 32 32 ∧ t.W[15] = s.len.extractLsb' 0 32

/-- FINAL with BUFCNT ≥ 56 LOADs the data, 0x80 and zeros as the first block, leaves 56 zeros and the length in BUF with
PEND2 set, sets FIN, clears BUFCNT, and changes nothing else (R174, R106). -/
def Obligations.FinalSpillsIntoASecondBlock : Prop :=
  ∀ s : State, s.phase = .idle → s.done = false → 56 ≤ s.bufcnt.toNat →
    ∃ t, exec .final s = .next t ∧
      (let first : Vector Byte 64 := Vector.ofFn fun j : Fin 64 =>
        if j.val < s.bufcnt.toNat then s.buf[j.val] else if j.val = s.bufcnt.toNat then 0x80 else 0x00
      t = { s with
        buf := t.buf, W := t.W, work := ⟨s.H[0], s.H[1], s.H[2], s.H[3], s.H[4], s.H[5], s.H[6], s.H[7]⟩,
        phase := .sched, t := 16, pend2 := true, bufcnt := 0, fin := true } ∧
      (∀ (i : Nat) (h : i < 16), t.W[i] = first[4 * i] ++ first[4 * i + 1] ++ first[4 * i + 2] ++ first[4 * i + 3]) ∧
      (∀ (i : Nat) (h : i < 64), 16 ≤ i → t.W[i] = s.W[i]) ∧
      (∀ (j : Nat) (h : j < 64), t.buf[j] = if j < 56 then 0x00 else s.len.extractLsb' (56 - 8 * (j - 56)) 8))

/-- What the commands leave alone, for every command and every state it answers from: no command touches DATA_IN, the
words of W above 15, BASE, the turns or the host; only INIT writes H; FINAL and NOP leave LEN (R170 to R174, R35). -/
def Obligations.CommandsLeaveTheRest : Prop :=
  ∀ (i : Instr) (s t : State), exec i s = .next t →
    t.dataIn = s.dataIn ∧ t.window = s.window ∧ t.turns = s.turns ∧ t.host = s.host ∧
    (∀ (k : Nat) (h : k < 64), 16 ≤ k → t.W[k] = s.W[k]) ∧
    (i ≠ .init → t.H = s.H ∧ t.done = s.done) ∧
    (i = .nop ∨ i = .final → t.len = s.len) ∧
    (i = .nop ∨ i = .init → t.W = s.W ∧ t.work = s.work ∧ t.buf = s.buf ∧ t.phase = s.phase ∧ t.t = s.t)

/-! ### Refusals (60_exceptions.md) -/

/-- A write to CMD while PHASE ≠ IDLE records BUSY if no error was recorded, whatever the word, and changes nothing else:
the command is dropped and the job is not affected (R203, R202). -/
def Obligations.CommandWhileBusyIsDropped : Prop :=
  ∀ (w : Word) (s : State), s.phase ≠ .idle →
    memWrite 0 w s = .next { s with err := true, errcode := if s.err then s.errcode else 1 }

/-- UPDATE and FINAL with PHASE = IDLE and DONE = 1 record SEQ if no error was recorded, and change nothing else
(R205, R202). -/
def Obligations.FinishedMessageIsNotExtended : Prop :=
  ∀ (w : Word) (n : Nat) (s : State), s.phase = .idle → s.done = true →
    decode w = .legal (.update n) ∨ decode w = .legal .final →
    memWrite 0 w s = .next { s with err := true, errcode := if s.err then s.errcode else 3 }

/-- A command word is checked for exactly one error, in the order BUSY, ILLEGAL, SEQ, and no micro-step raises an error
(R206, R170, R200). -/
def Obligations.ChecksComeInAFixedOrder : Prop :=
  (∀ (w : Word) (s : State), memWrite 0 w s =
    if s.phase ≠ .idle then .next { s with err := true, errcode := if s.err then s.errcode else 1 }
    else match decode w with
      | .illegal _ => .next { s with err := true, errcode := if s.err then s.errcode else 2 }
      | .legal .nop => .next s
      | .legal .init => .next (initMessage s)
      | .legal (.update n) =>
        if s.done = true then .next { s with err := true, errcode := if s.err then s.errcode else 3 }
        else .next (absorbUpdate n s)
      | .legal .final =>
        if s.done = true then .next { s with err := true, errcode := if s.err then s.errcode else 3 }
        else .next (padFinal s)) ∧
  (∀ s t : State, coreStep s = .next t → t.err = s.err ∧ t.errcode = s.errcode)

/-- UPDATE with a count outside 1..4 is no command: "`UPDATE 0` and `UPDATE 5` are not syntax; no encoding exists for them"
(R78). It has no word, no word decodes to it, it is no statement of a host program, and neither is PUSH with that count, so
a program that holds one does not expand. That exec refuses it, and under which name, is the model's (log entry 7). -/
def Obligations.CountOutsideOneToFourIsNoCommand : Prop :=
  ∀ (n : Nat) (s : State), n = 0 ∨ 5 ≤ n →
    exec (.update n) s = .refused .countOutOfRange ∧ encode (.update n) = none ∧
    (∀ w, decode w ≠ .legal (.update n)) ∧ command (.update n) = none ∧
    ∀ p : List Item, (.command (.update n) ∈ p ∨ ∃ v, .push n v ∈ p) → expandProgram p = none

/-! ### Who writes what, over every step (10_state.md) -/

/-- LEN: 0 by reset and INIT, plus 8·n modulo 2^64 by an UPDATE accept of n bytes, and no other step writes it (R105). -/
def Obligations.LenIsWrittenOnlyByInitUpdateReset : Prop :=
  ∀ s t : State, step s = .next t →
    t.len =
      if s.resets then 0
      else match s.accepts with
        | some .init => 0
        | some (.update n) => s.len + BitVec.ofNat 64 (8 * n)
        | _ => s.len

/-- H: IV by reset and INIT, the sums with a..h by FOLD, and no other step writes it (R21, R225). -/
def Obligations.HashIsWrittenOnlyByInitFoldReset : Prop :=
  ∀ s t : State, step s = .next t →
    t.H =
      if s.resets then Config.IV
      else if s.coreMoves ∧ s.phase = .fold then
        #v[s.H[0] + s.work.a, s.H[1] + s.work.b, s.H[2] + s.work.c, s.H[3] + s.work.d,
           s.H[4] + s.work.e, s.H[5] + s.work.f, s.H[6] + s.work.g, s.H[7] + s.work.h]
      else match s.accepts with
        | some .init => Config.IV
        | _ => s.H

/-- DATA_IN: 0 by reset, the word of a host write to offset 0x08 in every PHASE, and no other step writes it
(R35, R54). -/
def Obligations.DataInIsWrittenOnlyByTheHost : Prop :=
  ∀ s t : State, step s = .next t →
    t.dataIn =
      if s.resets then 0
      else match s.nextWrite with
        | some (8, v) => v
        | _ => s.dataIn

/-- BUFCNT: 0 by reset, INIT and FINAL, plus n modulo 64 by an UPDATE accept of n bytes, and no other step writes it
(R27). -/
def Obligations.BufcntCountsAcceptedBytes : Prop :=
  ∀ s t : State, step s = .next t →
    t.bufcnt =
      if s.resets then 0
      else match s.accepts with
        | some .init => 0
        | some (.update n) => BitVec.ofNat 6 ((s.bufcnt.toNat + n) % 64)
        | some .final => 0
        | _ => s.bufcnt

/-- BUSY: set by the accept of an UPDATE that fills BUF and of FINAL, cleared by the FOLD that ends the last job (a FOLD
with PEND2 = 1 keeps it) and by reset, and unchanged by every other step (R34, R38). -/
def Obligations.BusyIsSetByJobsAndClearedByTheLastFold : Prop :=
  ∀ s t : State, step s = .next t →
    t.busy =
      if s.resets then false
      else if s.coreMoves ∧ s.phase = .fold then s.pend2
      else match s.accepts with
        | some (.update n) => decide (64 ≤ s.bufcnt.toNat + n)
        | some .final => true
        | _ => s.busy

/-- DONE: set by the FOLD that ends the last FINAL block, cleared by INIT and reset, and unchanged by every other step
(R32, R38). -/
def Obligations.DoneIsSetOnlyByTheLastFold : Prop :=
  ∀ s t : State, step s = .next t →
    t.done =
      if s.resets then false
      else if s.coreMoves ∧ s.phase = .fold ∧ s.pend2 = false ∧ s.fin = true then true
      else match s.accepts with
        | some .init => false
        | _ => s.done

/-- ERR and ERRCODE: cleared by INIT and reset only, set by a refused command if ERR was 0, and unchanged by every other
step: later errors leave no trace (R202, R208, R38). -/
def Obligations.ErrorsAreStickyUntilInitOrReset : Prop :=
  ∀ s t : State, step s = .next t →
    (t.err, t.errcode) =
      if s.resets ∨ s.accepts = some .init then (false, 0)
      else match s.refuses with
        | none => (s.err, s.errcode)
        | some .busy => (true, if s.err then s.errcode else 1)
        | some .illegal => (true, if s.err then s.errcode else 2)
        | some .seq => (true, if s.err then s.errcode else 3)

/-- A host that writes CMD only while BUSY = 0 never gets a BUSY error (R177, R223). -/
def Obligations.ContractKeepsBusyErrorsAway : Prop :=
  ∀ s t : State, s.keepsContract → step s = .next t → s.errcode ≠ 1 → t.errcode ≠ 1

/-! ### The step and the window (20_memory.md) -/

/-- A host write of a command's word to CMD, listed next, runs that command on the state with the turn taken off; so does
the host's program at a WR to CMD, which moves when no turn is listed and the core is idle (the model's order, log entry
4); and a word placed by withFetchWord (log entry 10) is run by the very next step (R170, R15). -/
def Obligations.StepRunsTheDecodedCommand : Prop :=
  (∀ (w : Word) (i : Instr) (rest : List Turn) (s : State), decode w = .legal i →
    s.turns = .write s.base 4 w :: rest → step s = exec i { s with turns := rest }) ∧
  (∀ (w : Word) (i : Instr) (s : State), decode w = .legal i → s.turns = [] → s.phase = .idle →
    s.host.script[s.host.pos]? = some (.wr .cmd w) →
    step s = exec i { s with host := { s.host with pos := s.host.pos + 1 } }) ∧
  (∀ (w : Word) (i : Instr) (s : State), decode w = .legal i → step (s.withFetchWord 32 w.toNat) = exec i s)

/-- The core's turn is one micro-step (R15, R29). With no turn listed the core moves while a job runs: that order is the
model's (log entry 4), and it is how the core is not starved for ever (R17). R29 and R215 give the idle core no step and
keep all state; that a turn of the idle core is a step to the same state is the model's choice (log entry 5). -/
def Obligations.CoreTurnIsOneMicroStep : Prop :=
  (∀ (s : State) (rest : List Turn), s.turns = .core :: rest → step s = coreStep { s with turns := rest }) ∧
  (∀ s : State, s.turns = [] → s.phase ≠ .idle → step s = coreStep s) ∧
  (∀ s : State, s.phase = .idle → coreStep s = .next s)

/-- Each aligned offset reads as R51's row says, and a host read returns that value and changes no register (R53). -/
def Obligations.WindowReadsTheRegisters : Prop :=
  (∀ s : State,
    memRead s 0x00 = 0 ∧ memRead s 0x04 = s.status ∧ memRead s 0x08 = s.dataIn ∧
    memRead s 0x0C = s.len.extractLsb' 0 32 ∧ memRead s 0x10 = s.len.extractLsb' 32 32 ∧
    (∀ i : Fin 8, memRead s (0x20 + 4 * i.val) = s.H[i.val]) ∧
    (∀ off, off % 4 = 0 → (0x14 ≤ off ∧ off ≤ 0x1C) ∨ (0x40 ≤ off ∧ off ≤ 0xFC) → memRead s off = 0)) ∧
  (∀ (s : State) (off : Nat) (rest : List Turn), off < 256 → off % 4 = 0 →
    s.turns = .read (s.base + off) 4 :: rest →
    step s = .next { s with turns := rest, host := { s.host with reads := s.host.reads ++ [memRead s off] } })

/-- A write to DATA_IN stores the word and changes nothing else, in every PHASE; a write to every other offset but CMD
changes no state and raises no error (R54). -/
def Obligations.WritesElsewhereAreIgnored : Prop :=
  ∀ (s : State) (off : Nat) (v : Word) (rest : List Turn), off < 256 → off % 4 = 0 → off ≠ 0 →
    s.turns = .write (s.base + off) 4 v :: rest →
    step s = .next { s with turns := rest, dataIn := if off = 0x08 then v else s.dataIn }

/-- An access of another width than 32 bits and a misaligned access to the window are refused: they have no step (R52). The
names of the two refusals are the model's (log entry 7). -/
def Obligations.OtherAccessesHaveNoStep : Prop :=
  ∀ (s : State) (addr size : Nat) (v : Word) (rest : List Turn) (tu : Turn),
    s.base ≤ addr → addr < s.base + 256 → size ≠ 4 ∨ (addr - s.base) % 4 ≠ 0 →
    tu = .read addr size ∨ tu = .write addr size v → s.turns = tu :: rest →
    step s = .refused (if size = 4 then .accessMisaligned else .accessWidth)

/-- STATUS field by field, with every reserved bit 0 (R37). -/
def Obligations.StatusFieldsAreWhereTheyBelong : Prop :=
  (∀ s : State,
    s.status.getLsbD 0 = decide (s.phase ≠ .idle) ∧ s.status.getLsbD 1 = s.done ∧ s.status.getLsbD 2 = s.err ∧
    s.status.getLsbD 3 = false ∧ s.status.extractLsb' 4 3 = s.errcode ∧ s.status.getLsbD 7 = false ∧
    s.status.extractLsb' 8 6 = s.bufcnt ∧ s.status.extractLsb' 14 18 = 0) ∧
  (∀ (s : State) (v : Word), memWrite 0x04 v s = .next s) ∧
  State.reset.status = 0x00000000

/-- The host sees the core only through the window's registers: two states that agree on H, LEN, DATA_IN, BUSY, DONE, ERR,
ERRCODE and BUFCNT read alike at every offset, whatever a..h, W, BUF, T, PEND2 and FIN hold (R40, R229). -/
def Obligations.ReadsDependOnTheVisibleStateOnly : Prop :=
  ∀ (s s' : State) (off : Nat), s.H = s'.H → s.len = s'.len → s.dataIn = s'.dataIn → s.busy = s'.busy →
    s.done = s'.done → s.err = s'.err → s.errcode = s'.errcode → s.bufcnt = s'.bufcnt →
    memRead s off = memRead s' off

/-- The host's statements, with variables and labels numbered (log entry 8): WR writes its word at its register's offset, RD
gives the register's value to its variable and to the observation, BNZ goes on after its label exactly when a masked bit is
set, a label does nothing, and HALT ends the program; the host's position is the only other thing that moves (R79). A label
is a step of its own (log entry 8). That a turn at HALT is a step to the same state is the model's choice (log entry 5; R230
says that the run ends there), and so is the name under which a BNZ taken to a label the program does not hold is refused
(log entry 7). -/
def Obligations.HostStatementsDoWhatTheySay : Prop :=
  ∀ s : State,
    (∀ r v, s.host.script[s.host.pos]? = some (.wr r v) →
      scriptStep s = memWrite r.offset v { s with host := { s.host with pos := s.host.pos + 1 } }) ∧
    (∀ x r, s.host.script[s.host.pos]? = some (.rd x r) →
      ∃ hs, scriptStep s = .next { s with host := hs } ∧ hs.script = s.host.script ∧ hs.pos = s.host.pos + 1 ∧
        hs.var x = memRead s r.offset ∧ (∀ y, y ≠ x → hs.var y = s.host.var y) ∧
        hs.reads = s.host.reads ++ [memRead s r.offset]) ∧
    (∀ x m l p, s.host.script[s.host.pos]? = some (.bnz x m l) → labelPos l s.host.script = some p →
      scriptStep s = .next { s with host := { s.host with
        pos := if s.host.var x &&& m ≠ 0 then p else s.host.pos + 1 } }) ∧
    (∀ x m l, s.host.script[s.host.pos]? = some (.bnz x m l) → labelPos l s.host.script = none →
      scriptStep s = if s.host.var x &&& m ≠ 0 then .refused .noSuchLabel
        else .next { s with host := { s.host with pos := s.host.pos + 1 } }) ∧
    (∀ l, s.host.script[s.host.pos]? = some (.label l) →
      scriptStep s = .next { s with host := { s.host with pos := s.host.pos + 1 } }) ∧
    (s.host.script[s.host.pos]? = some .halt → scriptStep s = .next s)

/-! ### Reset (70_reset_and_hazards.md) -/

/-- A reset, asserted in any state, sets every element of the core to its reset value and abandons any job; the window, the
turns left and the host are not the core's (R220; that last clause is the model's, log entry 14). In the reset state
STATUS, LEN and DATA_IN read 0 and DIGESTi reads IV[i] (R221). -/
def Obligations.ResetRestoresEveryElement : Prop :=
  (∀ (s : State) (rest : List Turn), s.turns = .reset :: rest →
    step s = .next {
      H := Config.IV, work := ⟨0, 0, 0, 0, 0, 0, 0, 0⟩, W := Vector.replicate 64 0, buf := Vector.replicate 64 0,
      bufcnt := 0, len := 0, dataIn := 0, phase := .idle, t := 0, pend2 := false, fin := false, done := false,
      err := false, errcode := 0, window := s.window, turns := rest, host := s.host }) ∧
  memRead State.reset 0x04 = 0 ∧ memRead State.reset 0x0C = 0 ∧ memRead State.reset 0x10 = 0 ∧
  memRead State.reset 0x08 = 0 ∧ ∀ i : Fin 8, memRead State.reset (0x20 + 4 * i.val) = Config.IV[i.val]

/-- An idle legal state after INIT is the state after reset, but for DATA_IN, BUF, W and the working registers, which INIT
leaves unchanged, and for the model's own window, turns and host (R20, R172). -/
def Obligations.InitGivesTheResetState : Prop :=
  ∀ s : State, s.Inv → s.phase = .idle →
    exec .init s = .next { State.reset with
      dataIn := s.dataIn, buf := s.buf, W := s.W, work := s.work,
      window := s.window, turns := s.turns, host := s.host }

/-! ### Micro-steps and jobs (42_schedule.md, 43_compression.md) -/

/-- SCHED(t): one schedule word by the recurrence, then the next t, or ROUND with T = 0 after t = 63 (R124). -/
def Obligations.SchedWritesOneWord : Prop :=
  ∀ s : State, s.phase = .sched → (h : 16 ≤ s.t.toNat) →
    ∃ t, coreStep s = .next t ∧
      t = { s with W := t.W, phase := if s.t = 63 then .round else .sched, t := if s.t = 63 then 0 else s.t + 1 } ∧
      ∀ (j : Nat) (hj : j < 64), t.W[j] =
        if j = s.t.toNat then
          smallSigma1 (s.W[s.t.toNat - 2]'(by have := s.t.isLt; omega)) + s.W[s.t.toNat - 7]'(by have := s.t.isLt; omega)
            + smallSigma0 (s.W[s.t.toNat - 15]'(by have := s.t.isLt; omega))
            + s.W[s.t.toNat - 16]'(by have := s.t.isLt; omega)
        else s.W[j]

/-- ROUND(t): the eight working registers move by the round function, all from their old values; T = 63 goes on to FOLD
and keeps T (R145, R146). -/
def Obligations.RoundMovesTheWorkingRegisters : Prop :=
  ∀ s : State, s.phase = .round →
    let T1 := s.work.h + bigSigma1 s.work.e + ((s.work.e &&& s.work.f) ^^^ (~~~s.work.e &&& s.work.g))
      + Config.K[s.t.toNat]'s.t.isLt + s.W[s.t.toNat]'s.t.isLt
    let T2 := bigSigma0 s.work.a
      + ((s.work.a &&& s.work.b) ^^^ (s.work.a &&& s.work.c) ^^^ (s.work.b &&& s.work.c))
    coreStep s = .next { s with
      work := ⟨T1 + T2, s.work.a, s.work.b, s.work.c, s.work.d + T1, s.work.e, s.work.f, s.work.g⟩,
      phase := if s.t = 63 then .fold else .round, t := if s.t = 63 then s.t else s.t + 1 }

/-- FOLD: H gets the working registers added; with PEND2 the second block is LOADed from BUF with the H just written,
else FIN ends the message with DONE, else the block of an UPDATE ends; nothing else changes (R147). -/
def Obligations.FoldAddsAndSequences : Prop :=
  ∀ s : State, s.phase = .fold →
    let H' : Vector Word 8 := #v[s.H[0] + s.work.a, s.H[1] + s.work.b, s.H[2] + s.work.c, s.H[3] + s.work.d,
      s.H[4] + s.work.e, s.H[5] + s.work.f, s.H[6] + s.work.g, s.H[7] + s.work.h]
    (s.pend2 = true → ∃ t, coreStep s = .next t ∧
      t = { s with
        H := H', pend2 := false, W := t.W, phase := .sched, t := 16,
        work := ⟨H'[0], H'[1], H'[2], H'[3], H'[4], H'[5], H'[6], H'[7]⟩ } ∧
      (∀ (i : Nat) (h : i < 16), t.W[i] = s.buf[4 * i] ++ s.buf[4 * i + 1] ++ s.buf[4 * i + 2] ++ s.buf[4 * i + 3]) ∧
      (∀ (i : Nat) (h : i < 64), 16 ≤ i → t.W[i] = s.W[i])) ∧
    (s.pend2 = false → s.fin = true →
      coreStep s = .next { s with H := H', fin := false, done := true, phase := .idle, t := 0 }) ∧
    (s.pend2 = false → s.fin = false → coreStep s = .next { s with H := H', phase := .idle, t := 0 })

/-- After the 48 SCHED steps of a job W is the schedule of the block that LOAD read, whatever W held before it, and nothing
else but PHASE and T has changed (R124, R123). -/
def Obligations.FortyEightStepsGiveTheSchedule : Prop :=
  ∀ (s : State) (B : Vector Byte 64) (W0 : Vector Word 64), s.phase = .sched → s.t = 16 → s.W = loadWords B W0 →
    coreSteps 48 s = .next { s with W := scheduleOf B, phase := .round, t := 0 }

/-- A job started by LOAD with H and a block B ends, 113 micro-steps later, with H = Compress(H, B): idle, or with the
second padding block loaded when PEND2 was set (R148, R144, R16, R227). -/
def Obligations.JobFoldsTheCompressedBlock : Prop :=
  ∀ (s : State) (B : Vector Byte 64) (W0 : Vector Word 64), s.phase = .sched → s.t = 16 → s.W = loadWords B W0 →
    s.work = Working.ofHash s.H →
    ∃ t, coreSteps 113 s = .next t ∧ t.H = compress s.H B ∧ t.buf = s.buf ∧ t.len = s.len ∧ t.bufcnt = s.bufcnt ∧
      (s.pend2 = false → t.phase = .idle ∧ t.t = 0 ∧ t.fin = false ∧ t.done = (s.done || s.fin)) ∧
      (s.pend2 = true → t.phase = .sched ∧ t.t = 16 ∧ t.pend2 = false ∧ t.fin = s.fin ∧ t.done = s.done ∧
        t.work = Working.ofHash (compress s.H B) ∧ ∃ W1, t.W = loadWords s.buf W1)

/-- BUSY stays 1 for exactly 113 micro-steps after the accept of an UPDATE that fills BUF and of a FINAL with
BUFCNT ≤ 55, 226 after a FINAL with BUFCNT ≥ 56, and 0 after every other accepted command (R227, R176). -/
def Obligations.CommandsTakeTheirMicroSteps : Prop :=
  ∀ (i : Instr) (s t : State), s.phase = .idle → s.pend2 = false → WellFormed i → exec i s = .next t →
    (s.done = true → i = .nop ∨ i = .init) →
    let count := match i with
      | .nop => 0
      | .init => 0
      | .update n => if 64 ≤ s.bufcnt.toNat + n then 113 else 0
      | .final => if s.bufcnt.toNat ≤ 55 then 113 else 226
    (∀ k, k < count → ∃ u, coreSteps k t = .next u ∧ u.phase ≠ .idle) ∧
    ∃ u, coreSteps count t = .next u ∧ u.phase = .idle

/-- From every legal state, with no turn listed, the machine is idle after at most 226 steps: no host that polls waits for
ever (R227, R62). That the core moves when no turn is listed is the model's order (log entry 4). -/
def Obligations.BusyEndsWithinTwoJobs : Prop :=
  ∀ s : State, s.Inv → s.turns = [] → s.phase ≠ .idle →
    ∃ k t, k ≤ 226 ∧ Host.Core.run Sys2Proof.core k s = .next t ∧ t.phase = .idle

/-- The 113 micro-steps of a job are the one collapsed step (R229). -/
def Obligations.CollapsedJobIsTheWholeJob : Prop :=
  ∀ s : State, s.phase = .sched → s.t = 16 → coreSteps 113 s = .next (collapsedJob s)

/-- A sliding window of 16 words goes through exactly the words of the schedule (R125, R123). -/
def Obligations.SlidingWindowIsTheSchedule : Prop :=
  ∀ (B : Vector Byte 64) (k : Nat) (hk : k ≤ 48) (j : Nat) (hj : j < 16),
    (windowAfter B k)[j] = (scheduleOf B)[k + j]'(by omega)

/-- A running job does not depend on DATA_IN, on the turns or on the host: writing DATA_IN while it runs never changes what
it computes (R224, R177, R200). -/
def Obligations.JobIgnoresTheHost : Prop :=
  ∀ (k : Nat) (s t : State) (v : Word) (ts : List Turn) (hs : HostSide), coreSteps k s = .next t →
    coreSteps k { s with dataIn := v, turns := ts, host := hs } = .next { t with dataIn := v, turns := ts, host := hs }

/-! ### Invariants (R39) -/

/-- State.Inv holds at reset: the invariants of R39, and with them the model's further clauses of log entry 19 (FIN = 1
implies BUFCNT = 0, ERRCODE ≤ 3, LEN counts whole bytes, and BUFCNT is that count modulo 64 in every PHASE). -/
def Obligations.InvariantHoldsAtReset : Prop := State.reset.Inv

/-- Every step of every agent keeps State.Inv: the invariants of R39, "After every step, from any reset, the following
hold", and with them the model's further clauses of log entry 19 (FIN = 1 implies BUFCNT = 0, ERRCODE ≤ 3, LEN counts whole
bytes, and BUFCNT is that count modulo 64 in every PHASE), which make R39's items hold step by step. -/
def Obligations.EveryStepKeepsTheInvariants : Prop :=
  ∀ s t : State, s.Inv → step s = .next t → t.Inv

/-- In a legal state the core's turn always has a next state and records no error: the datapath never faults (R200). With
PHASE = IDLE, where R29 gives the core no step, that next state is the model's choice (log entry 5). -/
def Obligations.DatapathNeverFaults : Prop :=
  ∀ s : State, s.Inv → ∃ t, coreStep s = .next t ∧ t.err = s.err ∧ t.errcode = s.errcode

/-! ### Padding and the digest (41_padding.md, 44_digest.md) -/

/-- pad(m) is m, 0x80, (55 − L) mod 64 zero bytes and the length field, a whole number of blocks long (R101, R102). -/
def Obligations.PadInsertsTheCountedZeros : Prop :=
  ∀ m : List Byte,
    pad m = m ++ [0x80] ++ List.replicate (zeroCount m.length) 0x00 ++ be64Bytes (BitVec.ofNat 64 (8 * m.length)) ∧
    zeroCount m.length ≤ 63 ∧ (zeroCount m.length + m.length) % 64 = 55 ∧
    (pad m).length = m.length + 1 + zeroCount m.length + 8 ∧ (pad m).length % 64 = 0

/-- The number of blocks is floor((L + 8) / 64) + 1, and one block more than the data needs exactly when L mod 64 ≥ 56; at
L = 55 no zero byte is inserted and at L = 56 there are 63 (R103). The blocks one after another are pad(m) (R104). -/
def Obligations.BlockCountOfAMessage : Prop :=
  (zeroCount 55 = 0 ∧ zeroCount 56 = 63) ∧ ∀ m : List Byte,
    (blocks (pad m)).length = (m.length + 8) / 64 + 1 ∧
    ((blocks (pad m)).length = m.length / 64 + 2 ↔ 56 ≤ m.length % 64) ∧
    (blocks (pad m)).flatMap Vector.toList = pad m

/-- The padded bit length is a multiple of 512 and greater than the message's, and the last 8 bytes hold it (R109). -/
def Obligations.PaddingIsRecoverable : Prop :=
  ∀ m : List Byte, 8 * m.length < 2 ^ 64 →
    8 * (pad m).length % 512 = 0 ∧ 8 * m.length < 8 * (pad m).length ∧
    (((pad m).drop ((pad m).length - 8)).foldl (fun v b => 256 * v + b.toNat) 0) / 8 = m.length

/-- digest(H) has 32 bytes, and byte 4i + j is H[i][31−8j : 24−8j] (R160). -/
def Obligations.DigestBytesAreBigEndian : Prop :=
  ∀ H : Vector Word 8, (digestBytes H).length = 32 ∧
    ∀ (i j : Nat) (hi : i < 8), j < 4 → (digestBytes H)[4 * i + j]? = some (H[i].extractLsb' (24 - 8 * j) 8)

/-- hex(H) has 64 characters of 0123456789abcdef, character 8i + k being the one at place H[i][31−4k : 28−4k] of that
string, and the short hash is its first 8 characters, the digits of H[0] (R161, R162). -/
def Obligations.HexTextHasSixtyFourDigits : Prop :=
  ∀ H : Vector Word 8, (hexDigest H).length = 64 ∧
    (∀ c ∈ hexDigest H, c ∈ ['0', '1', '2', '3', '4', '5', '6', '7', '8', '9', 'a', 'b', 'c', 'd', 'e', 'f']) ∧
    (∀ (i k : Nat) (hi : i < 8), k < 8 →
      (hexDigest H)[8 * i + k]? =
        ['0', '1', '2', '3', '4', '5', '6', '7', '8', '9', 'a', 'b', 'c', 'd', 'e', 'f'][
          (H[i].extractLsb' (28 - 4 * k) 4).toNat]?) ∧
    shortHash H = (hexDigest H).take 8 ∧ shortHash H = hexWord H[0]

/-! ### Word primitives (40_bitops.md, 43_compression.md) -/

/-- Bit i of rotr(x, n) is bit (i + n) mod 32 of x (R90); of x >> n it is bit i + n, and 0 from bit 32 − n on (R91); of
σ0, σ1, Σ0 and Σ1 it is the xor of such bits at their fixed amounts (R121, R122, R140, R141); Ch takes bit i of y where x
has 1 and of z where x has 0 (R142); Maj is 1 exactly where two of the three are (R143). -/
def Obligations.WordFunctionsBitByBit : Prop :=
  (∀ (x : Word) (n i : Nat), n ≤ 31 → i < 32 →
    (rotr x n).getLsbD i = x.getLsbD ((i + n) % 32) ∧
    (shr x n).getLsbD i = (if i + n < 32 then x.getLsbD (i + n) else false)) ∧
  (∀ (x : Word) (i : Nat), i < 32 →
    (smallSigma0 x).getLsbD i =
      ((x.getLsbD ((i + 7) % 32) ^^ x.getLsbD ((i + 18) % 32)) ^^ (if i < 29 then x.getLsbD (i + 3) else false)) ∧
    (smallSigma1 x).getLsbD i =
      ((x.getLsbD ((i + 17) % 32) ^^ x.getLsbD ((i + 19) % 32)) ^^ (if i < 22 then x.getLsbD (i + 10) else false)) ∧
    (bigSigma0 x).getLsbD i =
      ((x.getLsbD ((i + 2) % 32) ^^ x.getLsbD ((i + 13) % 32)) ^^ x.getLsbD ((i + 22) % 32)) ∧
    (bigSigma1 x).getLsbD i =
      ((x.getLsbD ((i + 6) % 32) ^^ x.getLsbD ((i + 11) % 32)) ^^ x.getLsbD ((i + 25) % 32))) ∧
  (∀ (x y z : Word) (i : Nat), i < 32 →
    (ch x y z).getLsbD i = (if x.getLsbD i then y.getLsbD i else z.getLsbD i) ∧
    ((maj x y z).getLsbD i = true ↔
      2 ≤ (x.getLsbD i).toNat + (y.getLsbD i).toNat + (z.getLsbD i).toNat))

/-! ### The message and its digest (R107, R164, R178) -/

/-- Every step that is no reset, no INIT and no FINAL takes a state that holds the message m to one that holds m and the
bytes the step accepted, whatever else the host does in between (R107, R149, R164). -/
def Obligations.StepsAbsorbExactlyTheAcceptedBytes : Prop :=
  ∀ (m : List Byte) (s t : State), Represents m s → s.resets = false → s.accepts ≠ some .init →
    s.accepts ≠ some .final → step s = .next t → Represents (m ++ s.takenBytes) t

/-- FINAL on a state that holds m loads the blocks that end pad(m): the last one, or the last two when BUFCNT ≥ 56
(R106, R107). -/
def Obligations.FinalBuildsTheLastBlocksOfPad : Prop :=
  ∀ (m : List Byte) (s : State), Represents m s → s.phase = .idle →
    ∃ t, exec .final s = .next t ∧
      t.W = loadWords (blockAt (pad m) (m.length / 64)) s.W ∧
      (s.bufcnt.toNat ≤ 55 → t.pend2 = false ∧ (blocks (pad m)).length = m.length / 64 + 1) ∧
      (56 ≤ s.bufcnt.toNat → t.pend2 = true ∧ (blocks (pad m)).length = m.length / 64 + 2 ∧
        t.buf = blockAt (pad m) (m.length / 64 + 1))

/-- FINAL on a state that holds m, and then its 113 or 226 micro-steps, leave H = SHA256state(m) with DONE = 1 (R174, R107,
R163). For 8·|m| < 2^64 that is the SHA-256 digest of m. For a longer m it is SHA256state with the wrapped length field
(8·|m|) mod 2^64 (R108, R163, log entry 17), which is not the SHA-256 digest of m (I10). -/
def Obligations.FinalDeliversTheDigest : Prop :=
  ∀ (m : List Byte) (s : State), Represents m s → s.phase = .idle →
    ∃ t u, exec .final s = .next t ∧ coreSteps (if s.bufcnt.toNat ≤ 55 then 113 else 226) t = .next u ∧
      u.H = sha256State m ∧ u.done = true ∧ u.phase = .idle ∧ u.bufcnt = 0 ∧ u.len = s.len ∧
      u.err = s.err ∧ u.errcode = s.errcode

/-- In any run from an INIT to a FINAL and on to idle, with the core's steps, reads, DATA_IN writes and refused commands
interleaved in any way and the message split in any way, H ends as SHA256state of the accepted bytes m (R107, R164, R178).
For 8·|m| < 2^64 that is the SHA-256 digest of m. For a longer m it is SHA256state with the wrapped length field
(8·|m|) mod 2^64 (R108, R163, log entry 17), which is not the SHA-256 digest of m (I10). -/
def Obligations.AnyRunFromInitToFinalGivesTheDigest : Prop :=
  ∀ (m : List Byte) (s s0 s1 s2 u : State), s.accepts = some .init → step s = .next s0 → Absorbs s0 m s1 →
    s1.accepts = some .final → step s1 = .next s2 →
    Runs (fun x => x.resets = false ∧ x.phase ≠ .idle) s2 u → u.phase = .idle →
    u.H = sha256State m ∧ u.done = true ∧ u.bufcnt = 0 ∧ u.len = BitVec.ofNat 64 (8 * m.length)

/-- The expansions of R78 and R80. A command is a write of its word to CMD, and WAIT, PUSH, PUSHW, READDIGEST and HASHMSG
are the statements of their rows. HASHMSG's groups are the message in order, each of 4 bytes but for a last one of 1 to 4,
and a group's word is its bytes, the first on top, with zeros after them. A program whose UPDATE and PUSH counts are all 1
to 4 expands, and its statements are then the expansions of its items in order, each numbered from freshLabel or above.
Every label that the program's own statements name lies below freshLabel, and every label from there on names one place
only, so that a WAIT loops to its own read. Variable and label numbers, and the size of HASHMSG's groups, are the model's
(log entry 8). -/
def Obligations.PseudoInstructionsExpandWithFreshLabels : Prop :=
  (∀ (l : Nat) (w : Word) (i : Instr), encode i = some w → Item.expand l (.command i) = some [.wr .cmd w]) ∧
  (∀ (l : Nat) (st : Stmt), Item.expand l (.stmt st) = some [st]) ∧
  (∀ l : Nat, Item.expand l .wait = some [.label l, .rd waitVar .status, .bnz waitVar 0x1 l]) ∧
  (∀ (l n : Nat) (v w : Word), encode (.update n) = some w →
    Item.expand l (.push n v) = some [.wr .dataIn v, .wr .cmd w]) ∧
  (∀ (l : Nat) (v : Word), Item.expand l (.pushw v) = Item.expand l (.push 4 v)) ∧
  (∀ l : Nat, Item.expand l .readDigest = some [.rd 0 (.digest 0), .rd 1 (.digest 1), .rd 2 (.digest 2),
    .rd 3 (.digest 3), .rd 4 (.digest 4), .rd 5 (.digest 5), .rd 6 (.digest 6), .rd 7 (.digest 7)]) ∧
  (∀ (l : Nat) (m : List Byte), Item.expand l (.hashMsg m) = some (
    [.wr .cmd 0x00000001] ++ waitStmts l ++
    ((groups4 m).zipIdx (l + 1)).flatMap (fun g =>
      [.wr .dataIn (groupWord g.1), .wr .cmd (0x00000002 ||| (BitVec.ofNat 32 (g.1.length - 1) <<< 4))] ++
        waitStmts g.2) ++
    [.wr .cmd 0x00000003] ++ waitStmts (l + 1 + (groups4 m).length) ++ readDigestStmts)) ∧
  (∀ m : List Byte, (groups4 m).flatten = m ∧ ∀ (pre : List (List Byte)) (g : List Byte) (post : List (List Byte)),
    groups4 m = pre ++ g :: post → 1 ≤ g.length ∧ g.length ≤ 4 ∧ (post ≠ [] → g.length = 4)) ∧
  (∀ (g : List Byte) (k : Nat), g.length ≤ 4 → k < 4 →
    some ((groupWord g).extractLsb' (8 * (3 - k)) 8) = (g ++ List.replicate (4 - g.length) 0)[k]?) ∧
  (∀ p : List Item, (∀ n, .command (.update n) ∈ p → 1 ≤ n ∧ n ≤ 4) → (∀ n v, .push n v ∈ p → 1 ≤ n ∧ n ≤ 4) →
    ∃ sts, expandProgram p = some sts) ∧
  ∀ (p : List Item) (sts : List Stmt), expandProgram p = some sts →
    (∃ parts : List (List Stmt), sts = parts.flatten ∧
      List.Forall₂ (fun it part => ∃ l, freshLabel p ≤ l ∧ Item.expand l it = some part) p parts) ∧
    (∀ l, (.stmt (.label l) ∈ p ∨ ∃ x mask, .stmt (.bnz x mask l) ∈ p) → l < freshLabel p) ∧
    ∀ (l : Nat) (pre post : List Stmt), freshLabel p ≤ l → sts = pre ++ .label l :: post →
      labelPos l sts = some (pre.length + 1)

/-- The host program HASHMSG m, or the same with m split into UPDATEs of 1 to 4 bytes in any other way, run from any idle
state under any listed turns of the core and the host, ends with ERR = 0, DONE = 1, BUSY = 0, BUFCNT = 0, LEN = 8·|m| and
H = SHA256state(m), and its last eight reads are H (R178, R80). After the listed turns the order is the model's (log entry
4), the program, which has no HALT, counts as ended past its last statement and a turn left then changes nothing (log entry
5), and labels and variables are numbered (log entry 8); AnyRunFromInitToFinalGivesTheDigest is about every order. -/
def Obligations.HashMessageProgramGivesTheDigest : Prop :=
  ∀ (gs : List (List Byte)) (l : Nat) (s : State),
    (∀ g ∈ gs, 1 ≤ g.length ∧ g.length ≤ 4) → 8 * gs.flatten.length < 2 ^ 64 → s.phase = .idle →
    (∀ tu ∈ s.turns, tu = .core ∨ tu = .script) → some s.host.script = hashGroupsStmts l gs → s.host.pos = 0 →
    ∃ k t, Host.Core.run Sys2Proof.core k s = .next t ∧ t.host.ended = true ∧ t.turns = [] ∧
      t.err = false ∧ t.errcode = 0 ∧ t.done = true ∧ t.phase = .idle ∧ t.bufcnt = 0 ∧
      t.len.toNat = 8 * gs.flatten.length ∧ t.H = sha256State gs.flatten ∧ hexDigest t.H = hashBytes gs.flatten ∧
      ∃ before, t.host.reads = before ++ t.H.toList

/-! ### Instances (R66) -/

/-- A step of one core instance changes no other instance (R66, R213). The platform's step is the model's (log entry 15). -/
def Obligations.InstancesAreIndependent : Prop :=
  ∀ (n : Nat) (i j : Fin n) (p q : Platform n), platformStep i p = .next q → i ≠ j → q[j.val] = p[j.val]
end

