-- ==== Sys2Proof/Laws/Decode.lean ====
section
/-! SUPPORT. What the decoder answers, and the encoding table's rows as equations. -/

namespace Sys2Proof

/-- A decoded command is well formed: UPDATE's count is 1 to 4 (R72). -/
theorem decode_wf {w : Word} {i : Instr} (h : decode w = .legal i) : WellFormed i := by
  unfold decode at h
  have hb : byteCount w ≤ 4 ∧ 1 ≤ byteCount w := by
    unfold byteCount; have := (nbField w).isLt; omega
  split at h
  · cases h; rfl
  split at h
  · cases h; rfl
  split at h
  · cases h; simp [WellFormed, Instr.wf, hb]
  split at h
  · cases h; rfl
  · cases h

theorem wf_update {n : Nat} : WellFormed (.update n) ↔ 1 ≤ n ∧ n ≤ 4 := by simp [WellFormed, Instr.wf]

/-- UPDATE n with a count of 1 to 4 has the word of R73. -/
theorem encode_update_wf {n : Nat} (h : WellFormed (.update n)) :
    encode (.update n) = some (0x00000002#32 ||| (BitVec.ofNat 32 (n - 1) <<< 4)) := if_pos h

/-- UPDATE n with another count has no word (R78). -/
theorem encode_update_not_wf {n : Nat} (h : ¬ WellFormed (.update n)) : encode (.update n) = none := if_neg h

/-- A command that has a word is well formed. -/
theorem wf_of_encode {w : Word} {i : Instr} (h : encode i = some w) : WellFormed i := by
  cases i with
  | update n =>
    by_contra hn
    rw [encode_update_not_wf hn] at h
    cases h
  | _ => rfl

/-- A word matches a row exactly when it equals the row's pattern under its mask (R73). -/
theorem covers_iff (r : Row) (w : Word) : r.covers w = true ↔ w &&& r.mask = r.pattern := by simp [Row.covers]

end Sys2Proof
end

