-- ==== Sys2Proof/Laws/State.lean ====
section
/-! SUPPORT. For each shared operation, what it leaves of every field of State, and what it sets where that is one value. Proofs cite these and do not unfold the operations' record updates. -/

namespace Sys2Proof.Machine

/-! ### raise Error and its clearing (R202, R208) -/

@[simp] theorem raiseError_H (e : ErrCode) (s : State) :
    (raiseError e s).H = s.H := by unfold raiseError; split <;> rfl
@[simp] theorem raiseError_work (e : ErrCode) (s : State) :
    (raiseError e s).work = s.work := by unfold raiseError; split <;> rfl
@[simp] theorem raiseError_W (e : ErrCode) (s : State) :
    (raiseError e s).W = s.W := by unfold raiseError; split <;> rfl
@[simp] theorem raiseError_buf (e : ErrCode) (s : State) :
    (raiseError e s).buf = s.buf := by unfold raiseError; split <;> rfl
@[simp] theorem raiseError_bufcnt (e : ErrCode) (s : State) :
    (raiseError e s).bufcnt = s.bufcnt := by unfold raiseError; split <;> rfl
@[simp] theorem raiseError_len (e : ErrCode) (s : State) :
    (raiseError e s).len = s.len := by unfold raiseError; split <;> rfl
@[simp] theorem raiseError_dataIn (e : ErrCode) (s : State) :
    (raiseError e s).dataIn = s.dataIn := by unfold raiseError; split <;> rfl
@[simp] theorem raiseError_phase (e : ErrCode) (s : State) :
    (raiseError e s).phase = s.phase := by unfold raiseError; split <;> rfl
@[simp] theorem raiseError_t (e : ErrCode) (s : State) :
    (raiseError e s).t = s.t := by unfold raiseError; split <;> rfl
@[simp] theorem raiseError_pend2 (e : ErrCode) (s : State) :
    (raiseError e s).pend2 = s.pend2 := by unfold raiseError; split <;> rfl
@[simp] theorem raiseError_fin (e : ErrCode) (s : State) :
    (raiseError e s).fin = s.fin := by unfold raiseError; split <;> rfl
@[simp] theorem raiseError_done (e : ErrCode) (s : State) :
    (raiseError e s).done = s.done := by unfold raiseError; split <;> rfl
@[simp] theorem raiseError_err (e : ErrCode) (s : State) :
    (raiseError e s).err = true := by
  unfold raiseError; split <;> simp_all
@[simp] theorem raiseError_window (e : ErrCode) (s : State) :
    (raiseError e s).window = s.window := by unfold raiseError; split <;> rfl
@[simp] theorem raiseError_turns (e : ErrCode) (s : State) :
    (raiseError e s).turns = s.turns := by unfold raiseError; split <;> rfl
@[simp] theorem raiseError_host (e : ErrCode) (s : State) :
    (raiseError e s).host = s.host := by unfold raiseError; split <;> rfl

@[simp] theorem clearError_H (s : State) : (clearError s).H = s.H := by simp only [clearError]
@[simp] theorem clearError_work (s : State) : (clearError s).work = s.work := by simp only [clearError]
@[simp] theorem clearError_W (s : State) : (clearError s).W = s.W := by simp only [clearError]
@[simp] theorem clearError_buf (s : State) : (clearError s).buf = s.buf := by simp only [clearError]
@[simp] theorem clearError_bufcnt (s : State) : (clearError s).bufcnt = s.bufcnt := by simp only [clearError]
@[simp] theorem clearError_len (s : State) : (clearError s).len = s.len := by simp only [clearError]
@[simp] theorem clearError_dataIn (s : State) : (clearError s).dataIn = s.dataIn := by simp only [clearError]
@[simp] theorem clearError_phase (s : State) : (clearError s).phase = s.phase := by simp only [clearError]
@[simp] theorem clearError_t (s : State) : (clearError s).t = s.t := by simp only [clearError]
@[simp] theorem clearError_pend2 (s : State) : (clearError s).pend2 = s.pend2 := by simp only [clearError]
@[simp] theorem clearError_fin (s : State) : (clearError s).fin = s.fin := by simp only [clearError]
@[simp] theorem clearError_done (s : State) : (clearError s).done = s.done := by simp only [clearError]
@[simp] theorem clearError_err (s : State) : (clearError s).err = false := by simp only [clearError]
@[simp] theorem clearError_errcode (s : State) : (clearError s).errcode = 0 := by simp only [clearError]
@[simp] theorem clearError_window (s : State) : (clearError s).window = s.window := by simp only [clearError]
@[simp] theorem clearError_turns (s : State) : (clearError s).turns = s.turns := by simp only [clearError]
@[simp] theorem clearError_host (s : State) : (clearError s).host = s.host := by simp only [clearError]

/-! ### BUF and LOAD (R144) -/

@[simp] theorem setBuf_H (c : Nat) (b : Byte) (s : State) : (s.setBuf c b).H = s.H := by simp only [State.setBuf]
@[simp] theorem setBuf_work (c : Nat) (b : Byte) (s : State) :
    (s.setBuf c b).work = s.work := by simp only [State.setBuf]
@[simp] theorem setBuf_W (c : Nat) (b : Byte) (s : State) : (s.setBuf c b).W = s.W := by simp only [State.setBuf]
@[simp] theorem setBuf_buf (c : Nat) (b : Byte) (s : State) :
    (s.setBuf c b).buf = s.buf.setIfInBounds c b := by simp only [State.setBuf]
@[simp] theorem setBuf_bufcnt (c : Nat) (b : Byte) (s : State) :
    (s.setBuf c b).bufcnt = s.bufcnt := by simp only [State.setBuf]
@[simp] theorem setBuf_len (c : Nat) (b : Byte) (s : State) :
    (s.setBuf c b).len = s.len := by simp only [State.setBuf]
@[simp] theorem setBuf_dataIn (c : Nat) (b : Byte) (s : State) :
    (s.setBuf c b).dataIn = s.dataIn := by simp only [State.setBuf]
@[simp] theorem setBuf_phase (c : Nat) (b : Byte) (s : State) :
    (s.setBuf c b).phase = s.phase := by simp only [State.setBuf]
@[simp] theorem setBuf_t (c : Nat) (b : Byte) (s : State) : (s.setBuf c b).t = s.t := by simp only [State.setBuf]
@[simp] theorem setBuf_pend2 (c : Nat) (b : Byte) (s : State) :
    (s.setBuf c b).pend2 = s.pend2 := by simp only [State.setBuf]
@[simp] theorem setBuf_fin (c : Nat) (b : Byte) (s : State) :
    (s.setBuf c b).fin = s.fin := by simp only [State.setBuf]
@[simp] theorem setBuf_done (c : Nat) (b : Byte) (s : State) :
    (s.setBuf c b).done = s.done := by simp only [State.setBuf]
@[simp] theorem setBuf_err (c : Nat) (b : Byte) (s : State) :
    (s.setBuf c b).err = s.err := by simp only [State.setBuf]
@[simp] theorem setBuf_errcode (c : Nat) (b : Byte) (s : State) :
    (s.setBuf c b).errcode = s.errcode := by simp only [State.setBuf]
@[simp] theorem setBuf_window (c : Nat) (b : Byte) (s : State) :
    (s.setBuf c b).window = s.window := by simp only [State.setBuf]
@[simp] theorem setBuf_turns (c : Nat) (b : Byte) (s : State) :
    (s.setBuf c b).turns = s.turns := by simp only [State.setBuf]
@[simp] theorem setBuf_host (c : Nat) (b : Byte) (s : State) :
    (s.setBuf c b).host = s.host := by simp only [State.setBuf]

@[simp] theorem load_H (s : State) : (load s).H = s.H := by simp only [load]
@[simp] theorem load_work (s : State) : (load s).work = Working.ofHash s.H := by simp only [load]
@[simp] theorem load_W (s : State) : (load s).W = loadWords s.buf s.W := by simp only [load]
@[simp] theorem load_buf (s : State) : (load s).buf = s.buf := by simp only [load]
@[simp] theorem load_bufcnt (s : State) : (load s).bufcnt = s.bufcnt := by simp only [load]
@[simp] theorem load_len (s : State) : (load s).len = s.len := by simp only [load]
@[simp] theorem load_dataIn (s : State) : (load s).dataIn = s.dataIn := by simp only [load]
@[simp] theorem load_phase (s : State) : (load s).phase = .sched := by simp only [load]
@[simp] theorem load_t (s : State) : (load s).t = 16 := by simp only [load]
@[simp] theorem load_pend2 (s : State) : (load s).pend2 = s.pend2 := by simp only [load]
@[simp] theorem load_fin (s : State) : (load s).fin = s.fin := by simp only [load]
@[simp] theorem load_done (s : State) : (load s).done = s.done := by simp only [load]
@[simp] theorem load_err (s : State) : (load s).err = s.err := by simp only [load]
@[simp] theorem load_errcode (s : State) : (load s).errcode = s.errcode := by simp only [load]
@[simp] theorem load_window (s : State) : (load s).window = s.window := by simp only [load]
@[simp] theorem load_turns (s : State) : (load s).turns = s.turns := by simp only [load]
@[simp] theorem load_host (s : State) : (load s).host = s.host := by simp only [load]

/-! ### The accept of INIT, UPDATE and FINAL (R172, R173, R106) -/

@[simp] theorem initMessage_H (s : State) : (initMessage s).H = Config.IV := by simp only [initMessage, clearError]
@[simp] theorem initMessage_work (s : State) : (initMessage s).work = s.work := by simp only [initMessage, clearError]
@[simp] theorem initMessage_W (s : State) : (initMessage s).W = s.W := by simp only [initMessage, clearError]
@[simp] theorem initMessage_buf (s : State) : (initMessage s).buf = s.buf := by simp only [initMessage, clearError]
@[simp] theorem initMessage_bufcnt (s : State) : (initMessage s).bufcnt = 0 := by simp only [initMessage, clearError]
@[simp] theorem initMessage_len (s : State) : (initMessage s).len = 0 := by simp only [initMessage, clearError]
@[simp] theorem initMessage_dataIn (s : State) :
    (initMessage s).dataIn = s.dataIn := by simp only [initMessage, clearError]
@[simp] theorem initMessage_phase (s : State) :
    (initMessage s).phase = s.phase := by simp only [initMessage, clearError]
@[simp] theorem initMessage_t (s : State) : (initMessage s).t = s.t := by simp only [initMessage, clearError]
@[simp] theorem initMessage_pend2 (s : State) :
    (initMessage s).pend2 = false := by simp only [initMessage, clearError]
@[simp] theorem initMessage_fin (s : State) : (initMessage s).fin = false := by simp only [initMessage, clearError]
@[simp] theorem initMessage_done (s : State) : (initMessage s).done = false := by simp only [initMessage, clearError]
@[simp] theorem initMessage_err (s : State) : (initMessage s).err = false := by simp only [initMessage, clearError]
@[simp] theorem initMessage_errcode (s : State) :
    (initMessage s).errcode = 0 := by simp only [initMessage, clearError]
@[simp] theorem initMessage_window (s : State) :
    (initMessage s).window = s.window := by simp only [initMessage, clearError]
@[simp] theorem initMessage_turns (s : State) :
    (initMessage s).turns = s.turns := by simp only [initMessage, clearError]
@[simp] theorem initMessage_host (s : State) : (initMessage s).host = s.host := by simp only [initMessage, clearError]

@[simp] theorem addLength_H (n : Nat) (s : State) : (addLength n s).H = s.H := by simp only [addLength]
@[simp] theorem addLength_work (n : Nat) (s : State) : (addLength n s).work = s.work := by simp only [addLength]
@[simp] theorem addLength_W (n : Nat) (s : State) : (addLength n s).W = s.W := by simp only [addLength]
@[simp] theorem addLength_buf (n : Nat) (s : State) : (addLength n s).buf = s.buf := by simp only [addLength]
@[simp] theorem addLength_bufcnt (n : Nat) (s : State) : (addLength n s).bufcnt = s.bufcnt := by simp only [addLength]
@[simp] theorem addLength_len (n : Nat) (s : State) :
    (addLength n s).len = s.len + BitVec.ofNat 64 (8 * n) := by simp only [addLength]
@[simp] theorem addLength_dataIn (n : Nat) (s : State) : (addLength n s).dataIn = s.dataIn := by simp only [addLength]
@[simp] theorem addLength_phase (n : Nat) (s : State) : (addLength n s).phase = s.phase := by simp only [addLength]
@[simp] theorem addLength_t (n : Nat) (s : State) : (addLength n s).t = s.t := by simp only [addLength]
@[simp] theorem addLength_pend2 (n : Nat) (s : State) : (addLength n s).pend2 = s.pend2 := by simp only [addLength]
@[simp] theorem addLength_fin (n : Nat) (s : State) : (addLength n s).fin = s.fin := by simp only [addLength]
@[simp] theorem addLength_done (n : Nat) (s : State) : (addLength n s).done = s.done := by simp only [addLength]
@[simp] theorem addLength_err (n : Nat) (s : State) : (addLength n s).err = s.err := by simp only [addLength]
@[simp] theorem addLength_errcode (n : Nat) (s : State) :
    (addLength n s).errcode = s.errcode := by simp only [addLength]
@[simp] theorem addLength_window (n : Nat) (s : State) : (addLength n s).window = s.window := by simp only [addLength]
@[simp] theorem addLength_turns (n : Nat) (s : State) : (addLength n s).turns = s.turns := by simp only [addLength]
@[simp] theorem addLength_host (n : Nat) (s : State) : (addLength n s).host = s.host := by simp only [addLength]

@[simp] theorem absorbByte_H (b : Byte) (c : Nat) (s : State) :
    ((absorbByte b c s).1).H = s.H := by
  unfold absorbByte; split <;> simp
@[simp] theorem absorbByte_bufcnt (b : Byte) (c : Nat) (s : State) :
    ((absorbByte b c s).1).bufcnt = s.bufcnt := by
  unfold absorbByte; split <;> simp
@[simp] theorem absorbByte_len (b : Byte) (c : Nat) (s : State) :
    ((absorbByte b c s).1).len = s.len := by
  unfold absorbByte; split <;> simp
@[simp] theorem absorbByte_dataIn (b : Byte) (c : Nat) (s : State) :
    ((absorbByte b c s).1).dataIn = s.dataIn := by
  unfold absorbByte; split <;> simp
@[simp] theorem absorbByte_pend2 (b : Byte) (c : Nat) (s : State) :
    ((absorbByte b c s).1).pend2 = s.pend2 := by
  unfold absorbByte; split <;> simp
@[simp] theorem absorbByte_fin (b : Byte) (c : Nat) (s : State) :
    ((absorbByte b c s).1).fin = s.fin := by
  unfold absorbByte; split <;> simp
@[simp] theorem absorbByte_done (b : Byte) (c : Nat) (s : State) :
    ((absorbByte b c s).1).done = s.done := by
  unfold absorbByte; split <;> simp
@[simp] theorem absorbByte_err (b : Byte) (c : Nat) (s : State) :
    ((absorbByte b c s).1).err = s.err := by
  unfold absorbByte; split <;> simp
@[simp] theorem absorbByte_errcode (b : Byte) (c : Nat) (s : State) :
    ((absorbByte b c s).1).errcode = s.errcode := by
  unfold absorbByte; split <;> simp
@[simp] theorem absorbByte_window (b : Byte) (c : Nat) (s : State) :
    ((absorbByte b c s).1).window = s.window := by
  unfold absorbByte; split <;> simp
@[simp] theorem absorbByte_turns (b : Byte) (c : Nat) (s : State) :
    ((absorbByte b c s).1).turns = s.turns := by
  unfold absorbByte; split <;> simp
@[simp] theorem absorbByte_host (b : Byte) (c : Nat) (s : State) :
    ((absorbByte b c s).1).host = s.host := by
  unfold absorbByte; split <;> simp

@[simp] theorem absorbBytes_H (bs : List Byte) (c : Nat) (s : State) :
    (absorbBytes bs c s).1.H = s.H := by
  induction bs generalizing c s with
  | nil => rfl
  | cons b bs ih => simp only [absorbBytes, ih, absorbByte_H]
@[simp] theorem absorbBytes_bufcnt (bs : List Byte) (c : Nat) (s : State) :
    (absorbBytes bs c s).1.bufcnt = s.bufcnt := by
  induction bs generalizing c s with
  | nil => rfl
  | cons b bs ih => simp only [absorbBytes, ih, absorbByte_bufcnt]
@[simp] theorem absorbBytes_len (bs : List Byte) (c : Nat) (s : State) :
    (absorbBytes bs c s).1.len = s.len := by
  induction bs generalizing c s with
  | nil => rfl
  | cons b bs ih => simp only [absorbBytes, ih, absorbByte_len]
@[simp] theorem absorbBytes_dataIn (bs : List Byte) (c : Nat) (s : State) :
    (absorbBytes bs c s).1.dataIn = s.dataIn := by
  induction bs generalizing c s with
  | nil => rfl
  | cons b bs ih => simp only [absorbBytes, ih, absorbByte_dataIn]
@[simp] theorem absorbBytes_pend2 (bs : List Byte) (c : Nat) (s : State) :
    (absorbBytes bs c s).1.pend2 = s.pend2 := by
  induction bs generalizing c s with
  | nil => rfl
  | cons b bs ih => simp only [absorbBytes, ih, absorbByte_pend2]
@[simp] theorem absorbBytes_fin (bs : List Byte) (c : Nat) (s : State) :
    (absorbBytes bs c s).1.fin = s.fin := by
  induction bs generalizing c s with
  | nil => rfl
  | cons b bs ih => simp only [absorbBytes, ih, absorbByte_fin]
@[simp] theorem absorbBytes_done (bs : List Byte) (c : Nat) (s : State) :
    (absorbBytes bs c s).1.done = s.done := by
  induction bs generalizing c s with
  | nil => rfl
  | cons b bs ih => simp only [absorbBytes, ih, absorbByte_done]
@[simp] theorem absorbBytes_err (bs : List Byte) (c : Nat) (s : State) :
    (absorbBytes bs c s).1.err = s.err := by
  induction bs generalizing c s with
  | nil => rfl
  | cons b bs ih => simp only [absorbBytes, ih, absorbByte_err]
@[simp] theorem absorbBytes_errcode (bs : List Byte) (c : Nat) (s : State) :
    (absorbBytes bs c s).1.errcode = s.errcode := by
  induction bs generalizing c s with
  | nil => rfl
  | cons b bs ih => simp only [absorbBytes, ih, absorbByte_errcode]
@[simp] theorem absorbBytes_window (bs : List Byte) (c : Nat) (s : State) :
    (absorbBytes bs c s).1.window = s.window := by
  induction bs generalizing c s with
  | nil => rfl
  | cons b bs ih => simp only [absorbBytes, ih, absorbByte_window]
@[simp] theorem absorbBytes_turns (bs : List Byte) (c : Nat) (s : State) :
    (absorbBytes bs c s).1.turns = s.turns := by
  induction bs generalizing c s with
  | nil => rfl
  | cons b bs ih => simp only [absorbBytes, ih, absorbByte_turns]
@[simp] theorem absorbBytes_host (bs : List Byte) (c : Nat) (s : State) :
    (absorbBytes bs c s).1.host = s.host := by
  induction bs generalizing c s with
  | nil => rfl
  | cons b bs ih => simp only [absorbBytes, ih, absorbByte_host]

@[simp] theorem absorbUpdate_H (n : Nat) (s : State) : (absorbUpdate n s).H = s.H := by simp [absorbUpdate]
@[simp] theorem absorbUpdate_len (n : Nat) (s : State) :
    (absorbUpdate n s).len = s.len + BitVec.ofNat 64 (8 * n) := by simp [absorbUpdate]
@[simp] theorem absorbUpdate_dataIn (n : Nat) (s : State) :
    (absorbUpdate n s).dataIn = s.dataIn := by simp [absorbUpdate]
@[simp] theorem absorbUpdate_pend2 (n : Nat) (s : State) :
    (absorbUpdate n s).pend2 = s.pend2 := by simp [absorbUpdate]
@[simp] theorem absorbUpdate_fin (n : Nat) (s : State) : (absorbUpdate n s).fin = s.fin := by simp [absorbUpdate]
@[simp] theorem absorbUpdate_done (n : Nat) (s : State) : (absorbUpdate n s).done = s.done := by simp [absorbUpdate]
@[simp] theorem absorbUpdate_err (n : Nat) (s : State) : (absorbUpdate n s).err = s.err := by simp [absorbUpdate]
@[simp] theorem absorbUpdate_errcode (n : Nat) (s : State) :
    (absorbUpdate n s).errcode = s.errcode := by simp [absorbUpdate]
@[simp] theorem absorbUpdate_window (n : Nat) (s : State) :
    (absorbUpdate n s).window = s.window := by simp [absorbUpdate]
@[simp] theorem absorbUpdate_turns (n : Nat) (s : State) :
    (absorbUpdate n s).turns = s.turns := by simp [absorbUpdate]
@[simp] theorem absorbUpdate_host (n : Nat) (s : State) : (absorbUpdate n s).host = s.host := by simp [absorbUpdate]

@[simp] theorem padBlocks_H (s : State) : (padBlocks s).H = s.H := by
  unfold padBlocks; split <;> simp
@[simp] theorem padBlocks_work (s : State) :
    (padBlocks s).work = Working.ofHash s.H := by
  unfold padBlocks; split <;> simp
@[simp] theorem padBlocks_bufcnt (s : State) :
    (padBlocks s).bufcnt = s.bufcnt := by
  unfold padBlocks; split <;> simp
@[simp] theorem padBlocks_len (s : State) : (padBlocks s).len = s.len := by
  unfold padBlocks; split <;> simp
@[simp] theorem padBlocks_dataIn (s : State) :
    (padBlocks s).dataIn = s.dataIn := by
  unfold padBlocks; split <;> simp
@[simp] theorem padBlocks_phase (s : State) : (padBlocks s).phase = .sched := by
  unfold padBlocks; split <;> simp
@[simp] theorem padBlocks_t (s : State) : (padBlocks s).t = 16 := by
  unfold padBlocks; split <;> simp
@[simp] theorem padBlocks_fin (s : State) : (padBlocks s).fin = s.fin := by
  unfold padBlocks; split <;> simp
@[simp] theorem padBlocks_done (s : State) : (padBlocks s).done = s.done := by
  unfold padBlocks; split <;> simp
@[simp] theorem padBlocks_err (s : State) : (padBlocks s).err = s.err := by
  unfold padBlocks; split <;> simp
@[simp] theorem padBlocks_errcode (s : State) :
    (padBlocks s).errcode = s.errcode := by
  unfold padBlocks; split <;> simp
@[simp] theorem padBlocks_window (s : State) :
    (padBlocks s).window = s.window := by
  unfold padBlocks; split <;> simp
@[simp] theorem padBlocks_turns (s : State) : (padBlocks s).turns = s.turns := by
  unfold padBlocks; split <;> simp
@[simp] theorem padBlocks_host (s : State) : (padBlocks s).host = s.host := by
  unfold padBlocks; split <;> simp

@[simp] theorem padFinal_H (s : State) : (padFinal s).H = s.H := by simp [padFinal]
@[simp] theorem padFinal_work (s : State) : (padFinal s).work = Working.ofHash s.H := by simp [padFinal]
@[simp] theorem padFinal_bufcnt (s : State) : (padFinal s).bufcnt = 0 := by simp [padFinal]
@[simp] theorem padFinal_len (s : State) : (padFinal s).len = s.len := by simp [padFinal]
@[simp] theorem padFinal_dataIn (s : State) : (padFinal s).dataIn = s.dataIn := by simp [padFinal]
@[simp] theorem padFinal_phase (s : State) : (padFinal s).phase = .sched := by simp [padFinal]
@[simp] theorem padFinal_t (s : State) : (padFinal s).t = 16 := by simp [padFinal]
@[simp] theorem padFinal_fin (s : State) : (padFinal s).fin = true := by simp [padFinal]
@[simp] theorem padFinal_done (s : State) : (padFinal s).done = s.done := by simp [padFinal]
@[simp] theorem padFinal_err (s : State) : (padFinal s).err = s.err := by simp [padFinal]
@[simp] theorem padFinal_errcode (s : State) : (padFinal s).errcode = s.errcode := by simp [padFinal]
@[simp] theorem padFinal_window (s : State) : (padFinal s).window = s.window := by simp [padFinal]
@[simp] theorem padFinal_turns (s : State) : (padFinal s).turns = s.turns := by simp [padFinal]
@[simp] theorem padFinal_host (s : State) : (padFinal s).host = s.host := by simp [padFinal]

/-! ### The micro-steps (R124, R146, R147) -/

@[simp] theorem schedStep_H (s : State) : (schedStep s).H = s.H := by
  unfold schedStep; split <;> rfl
@[simp] theorem schedStep_work (s : State) : (schedStep s).work = s.work := by
  unfold schedStep; split <;> rfl
@[simp] theorem schedStep_buf (s : State) : (schedStep s).buf = s.buf := by
  unfold schedStep; split <;> rfl
@[simp] theorem schedStep_bufcnt (s : State) : (schedStep s).bufcnt = s.bufcnt := by
  unfold schedStep; split <;> rfl
@[simp] theorem schedStep_len (s : State) : (schedStep s).len = s.len := by
  unfold schedStep; split <;> rfl
@[simp] theorem schedStep_dataIn (s : State) : (schedStep s).dataIn = s.dataIn := by
  unfold schedStep; split <;> rfl
@[simp] theorem schedStep_pend2 (s : State) : (schedStep s).pend2 = s.pend2 := by
  unfold schedStep; split <;> rfl
@[simp] theorem schedStep_fin (s : State) : (schedStep s).fin = s.fin := by
  unfold schedStep; split <;> rfl
@[simp] theorem schedStep_done (s : State) : (schedStep s).done = s.done := by
  unfold schedStep; split <;> rfl
@[simp] theorem schedStep_err (s : State) : (schedStep s).err = s.err := by
  unfold schedStep; split <;> rfl
@[simp] theorem schedStep_errcode (s : State) :
    (schedStep s).errcode = s.errcode := by
  unfold schedStep; split <;> rfl
@[simp] theorem schedStep_window (s : State) : (schedStep s).window = s.window := by
  unfold schedStep; split <;> rfl
@[simp] theorem schedStep_turns (s : State) : (schedStep s).turns = s.turns := by
  unfold schedStep; split <;> rfl
@[simp] theorem schedStep_host (s : State) : (schedStep s).host = s.host := by
  unfold schedStep; split <;> rfl

@[simp] theorem roundStep_H (s : State) : (roundStep s).H = s.H := by
  unfold roundStep; split <;> rfl
@[simp] theorem roundStep_W (s : State) : (roundStep s).W = s.W := by
  unfold roundStep; split <;> rfl
@[simp] theorem roundStep_buf (s : State) : (roundStep s).buf = s.buf := by
  unfold roundStep; split <;> rfl
@[simp] theorem roundStep_bufcnt (s : State) : (roundStep s).bufcnt = s.bufcnt := by
  unfold roundStep; split <;> rfl
@[simp] theorem roundStep_len (s : State) : (roundStep s).len = s.len := by
  unfold roundStep; split <;> rfl
@[simp] theorem roundStep_dataIn (s : State) : (roundStep s).dataIn = s.dataIn := by
  unfold roundStep; split <;> rfl
@[simp] theorem roundStep_pend2 (s : State) : (roundStep s).pend2 = s.pend2 := by
  unfold roundStep; split <;> rfl
@[simp] theorem roundStep_fin (s : State) : (roundStep s).fin = s.fin := by
  unfold roundStep; split <;> rfl
@[simp] theorem roundStep_done (s : State) : (roundStep s).done = s.done := by
  unfold roundStep; split <;> rfl
@[simp] theorem roundStep_err (s : State) : (roundStep s).err = s.err := by
  unfold roundStep; split <;> rfl
@[simp] theorem roundStep_errcode (s : State) :
    (roundStep s).errcode = s.errcode := by
  unfold roundStep; split <;> rfl
@[simp] theorem roundStep_window (s : State) : (roundStep s).window = s.window := by
  unfold roundStep; split <;> rfl
@[simp] theorem roundStep_turns (s : State) : (roundStep s).turns = s.turns := by
  unfold roundStep; split <;> rfl
@[simp] theorem roundStep_host (s : State) : (roundStep s).host = s.host := by
  unfold roundStep; split <;> rfl

@[simp] theorem afterFold_H (s : State) :
    (afterFold s).H = s.H := by
  unfold afterFold; split
  · simp
  · split <;> rfl
@[simp] theorem afterFold_buf (s : State) :
    (afterFold s).buf = s.buf := by
  unfold afterFold; split
  · simp
  · split <;> rfl
@[simp] theorem afterFold_bufcnt (s : State) :
    (afterFold s).bufcnt = s.bufcnt := by
  unfold afterFold; split
  · simp
  · split <;> rfl
@[simp] theorem afterFold_len (s : State) :
    (afterFold s).len = s.len := by
  unfold afterFold; split
  · simp
  · split <;> rfl
@[simp] theorem afterFold_dataIn (s : State) :
    (afterFold s).dataIn = s.dataIn := by
  unfold afterFold; split
  · simp
  · split <;> rfl
@[simp] theorem afterFold_err (s : State) :
    (afterFold s).err = s.err := by
  unfold afterFold; split
  · simp
  · split <;> rfl
@[simp] theorem afterFold_errcode (s : State) :
    (afterFold s).errcode = s.errcode := by
  unfold afterFold; split
  · simp
  · split <;> rfl
@[simp] theorem afterFold_window (s : State) :
    (afterFold s).window = s.window := by
  unfold afterFold; split
  · simp
  · split <;> rfl
@[simp] theorem afterFold_turns (s : State) :
    (afterFold s).turns = s.turns := by
  unfold afterFold; split
  · simp
  · split <;> rfl
@[simp] theorem afterFold_host (s : State) :
    (afterFold s).host = s.host := by
  unfold afterFold; split
  · simp
  · split <;> rfl

@[simp] theorem foldStep_H (s : State) : (foldStep s).H = foldHash s.H s.work := by simp [foldStep]
@[simp] theorem foldStep_buf (s : State) : (foldStep s).buf = s.buf := by simp [foldStep]
@[simp] theorem foldStep_bufcnt (s : State) : (foldStep s).bufcnt = s.bufcnt := by simp [foldStep]
@[simp] theorem foldStep_len (s : State) : (foldStep s).len = s.len := by simp [foldStep]
@[simp] theorem foldStep_dataIn (s : State) : (foldStep s).dataIn = s.dataIn := by simp [foldStep]
@[simp] theorem foldStep_err (s : State) : (foldStep s).err = s.err := by simp [foldStep]
@[simp] theorem foldStep_errcode (s : State) : (foldStep s).errcode = s.errcode := by simp [foldStep]
@[simp] theorem foldStep_window (s : State) : (foldStep s).window = s.window := by simp [foldStep]
@[simp] theorem foldStep_turns (s : State) : (foldStep s).turns = s.turns := by simp [foldStep]
@[simp] theorem foldStep_host (s : State) : (foldStep s).host = s.host := by simp [foldStep]

/-! ### Reset and the host's side (R220, R230) -/

@[simp] theorem resetCore_H (s : State) : (resetCore s).H = State.reset.H := by simp only [resetCore]
@[simp] theorem resetCore_work (s : State) : (resetCore s).work = State.reset.work := by simp only [resetCore]
@[simp] theorem resetCore_W (s : State) : (resetCore s).W = State.reset.W := by simp only [resetCore]
@[simp] theorem resetCore_buf (s : State) : (resetCore s).buf = State.reset.buf := by simp only [resetCore]
@[simp] theorem resetCore_bufcnt (s : State) : (resetCore s).bufcnt = State.reset.bufcnt := by simp only [resetCore]
@[simp] theorem resetCore_len (s : State) : (resetCore s).len = State.reset.len := by simp only [resetCore]
@[simp] theorem resetCore_dataIn (s : State) : (resetCore s).dataIn = State.reset.dataIn := by simp only [resetCore]
@[simp] theorem resetCore_phase (s : State) : (resetCore s).phase = State.reset.phase := by simp only [resetCore]
@[simp] theorem resetCore_t (s : State) : (resetCore s).t = State.reset.t := by simp only [resetCore]
@[simp] theorem resetCore_pend2 (s : State) : (resetCore s).pend2 = State.reset.pend2 := by simp only [resetCore]
@[simp] theorem resetCore_fin (s : State) : (resetCore s).fin = State.reset.fin := by simp only [resetCore]
@[simp] theorem resetCore_done (s : State) : (resetCore s).done = State.reset.done := by simp only [resetCore]
@[simp] theorem resetCore_err (s : State) : (resetCore s).err = State.reset.err := by simp only [resetCore]
@[simp] theorem resetCore_errcode (s : State) :
    (resetCore s).errcode = State.reset.errcode := by simp only [resetCore]
@[simp] theorem resetCore_window (s : State) : (resetCore s).window = s.window := by simp only [resetCore]
@[simp] theorem resetCore_turns (s : State) : (resetCore s).turns = s.turns := by simp only [resetCore]
@[simp] theorem resetCore_host (s : State) : (resetCore s).host = s.host := by simp only [resetCore]

@[simp] theorem setHost_H (hs : HostSide) (s : State) : (s.setHost hs).H = s.H := by simp only [State.setHost]
@[simp] theorem setHost_work (hs : HostSide) (s : State) :
    (s.setHost hs).work = s.work := by simp only [State.setHost]
@[simp] theorem setHost_W (hs : HostSide) (s : State) : (s.setHost hs).W = s.W := by simp only [State.setHost]
@[simp] theorem setHost_buf (hs : HostSide) (s : State) : (s.setHost hs).buf = s.buf := by simp only [State.setHost]
@[simp] theorem setHost_bufcnt (hs : HostSide) (s : State) :
    (s.setHost hs).bufcnt = s.bufcnt := by simp only [State.setHost]
@[simp] theorem setHost_len (hs : HostSide) (s : State) : (s.setHost hs).len = s.len := by simp only [State.setHost]
@[simp] theorem setHost_dataIn (hs : HostSide) (s : State) :
    (s.setHost hs).dataIn = s.dataIn := by simp only [State.setHost]
@[simp] theorem setHost_phase (hs : HostSide) (s : State) :
    (s.setHost hs).phase = s.phase := by simp only [State.setHost]
@[simp] theorem setHost_t (hs : HostSide) (s : State) : (s.setHost hs).t = s.t := by simp only [State.setHost]
@[simp] theorem setHost_pend2 (hs : HostSide) (s : State) :
    (s.setHost hs).pend2 = s.pend2 := by simp only [State.setHost]
@[simp] theorem setHost_fin (hs : HostSide) (s : State) : (s.setHost hs).fin = s.fin := by simp only [State.setHost]
@[simp] theorem setHost_done (hs : HostSide) (s : State) :
    (s.setHost hs).done = s.done := by simp only [State.setHost]
@[simp] theorem setHost_err (hs : HostSide) (s : State) : (s.setHost hs).err = s.err := by simp only [State.setHost]
@[simp] theorem setHost_errcode (hs : HostSide) (s : State) :
    (s.setHost hs).errcode = s.errcode := by simp only [State.setHost]
@[simp] theorem setHost_window (hs : HostSide) (s : State) :
    (s.setHost hs).window = s.window := by simp only [State.setHost]
@[simp] theorem setHost_turns (hs : HostSide) (s : State) :
    (s.setHost hs).turns = s.turns := by simp only [State.setHost]
@[simp] theorem setHost_host (hs : HostSide) (s : State) : (s.setHost hs).host = hs := by simp only [State.setHost]

@[simp] theorem observe_H (v : Word) (s : State) : (observe v s).H = s.H := by simp [observe]
@[simp] theorem observe_work (v : Word) (s : State) : (observe v s).work = s.work := by simp [observe]
@[simp] theorem observe_W (v : Word) (s : State) : (observe v s).W = s.W := by simp [observe]
@[simp] theorem observe_buf (v : Word) (s : State) : (observe v s).buf = s.buf := by simp [observe]
@[simp] theorem observe_bufcnt (v : Word) (s : State) : (observe v s).bufcnt = s.bufcnt := by simp [observe]
@[simp] theorem observe_len (v : Word) (s : State) : (observe v s).len = s.len := by simp [observe]
@[simp] theorem observe_dataIn (v : Word) (s : State) : (observe v s).dataIn = s.dataIn := by simp [observe]
@[simp] theorem observe_phase (v : Word) (s : State) : (observe v s).phase = s.phase := by simp [observe]
@[simp] theorem observe_t (v : Word) (s : State) : (observe v s).t = s.t := by simp [observe]
@[simp] theorem observe_pend2 (v : Word) (s : State) : (observe v s).pend2 = s.pend2 := by simp [observe]
@[simp] theorem observe_fin (v : Word) (s : State) : (observe v s).fin = s.fin := by simp [observe]
@[simp] theorem observe_done (v : Word) (s : State) : (observe v s).done = s.done := by simp [observe]
@[simp] theorem observe_err (v : Word) (s : State) : (observe v s).err = s.err := by simp [observe]
@[simp] theorem observe_errcode (v : Word) (s : State) : (observe v s).errcode = s.errcode := by simp [observe]
@[simp] theorem observe_window (v : Word) (s : State) : (observe v s).window = s.window := by simp [observe]
@[simp] theorem observe_turns (v : Word) (s : State) : (observe v s).turns = s.turns := by simp [observe]

@[simp] theorem goto_H (p : Nat) (s : State) : (goto p s).H = s.H := by simp [goto]
@[simp] theorem goto_work (p : Nat) (s : State) : (goto p s).work = s.work := by simp [goto]
@[simp] theorem goto_W (p : Nat) (s : State) : (goto p s).W = s.W := by simp [goto]
@[simp] theorem goto_buf (p : Nat) (s : State) : (goto p s).buf = s.buf := by simp [goto]
@[simp] theorem goto_bufcnt (p : Nat) (s : State) : (goto p s).bufcnt = s.bufcnt := by simp [goto]
@[simp] theorem goto_len (p : Nat) (s : State) : (goto p s).len = s.len := by simp [goto]
@[simp] theorem goto_dataIn (p : Nat) (s : State) : (goto p s).dataIn = s.dataIn := by simp [goto]
@[simp] theorem goto_phase (p : Nat) (s : State) : (goto p s).phase = s.phase := by simp [goto]
@[simp] theorem goto_t (p : Nat) (s : State) : (goto p s).t = s.t := by simp [goto]
@[simp] theorem goto_pend2 (p : Nat) (s : State) : (goto p s).pend2 = s.pend2 := by simp [goto]
@[simp] theorem goto_fin (p : Nat) (s : State) : (goto p s).fin = s.fin := by simp [goto]
@[simp] theorem goto_done (p : Nat) (s : State) : (goto p s).done = s.done := by simp [goto]
@[simp] theorem goto_err (p : Nat) (s : State) : (goto p s).err = s.err := by simp [goto]
@[simp] theorem goto_errcode (p : Nat) (s : State) : (goto p s).errcode = s.errcode := by simp [goto]
@[simp] theorem goto_window (p : Nat) (s : State) : (goto p s).window = s.window := by simp [goto]
@[simp] theorem goto_turns (p : Nat) (s : State) : (goto p s).turns = s.turns := by simp [goto]

@[simp] theorem popTurn_H (s : State) : (s.popTurn).H = s.H := by simp only [State.popTurn]
@[simp] theorem popTurn_work (s : State) : (s.popTurn).work = s.work := by simp only [State.popTurn]
@[simp] theorem popTurn_W (s : State) : (s.popTurn).W = s.W := by simp only [State.popTurn]
@[simp] theorem popTurn_buf (s : State) : (s.popTurn).buf = s.buf := by simp only [State.popTurn]
@[simp] theorem popTurn_bufcnt (s : State) : (s.popTurn).bufcnt = s.bufcnt := by simp only [State.popTurn]
@[simp] theorem popTurn_len (s : State) : (s.popTurn).len = s.len := by simp only [State.popTurn]
@[simp] theorem popTurn_dataIn (s : State) : (s.popTurn).dataIn = s.dataIn := by simp only [State.popTurn]
@[simp] theorem popTurn_phase (s : State) : (s.popTurn).phase = s.phase := by simp only [State.popTurn]
@[simp] theorem popTurn_t (s : State) : (s.popTurn).t = s.t := by simp only [State.popTurn]
@[simp] theorem popTurn_pend2 (s : State) : (s.popTurn).pend2 = s.pend2 := by simp only [State.popTurn]
@[simp] theorem popTurn_fin (s : State) : (s.popTurn).fin = s.fin := by simp only [State.popTurn]
@[simp] theorem popTurn_done (s : State) : (s.popTurn).done = s.done := by simp only [State.popTurn]
@[simp] theorem popTurn_err (s : State) : (s.popTurn).err = s.err := by simp only [State.popTurn]
@[simp] theorem popTurn_errcode (s : State) : (s.popTurn).errcode = s.errcode := by simp only [State.popTurn]
@[simp] theorem popTurn_window (s : State) : (s.popTurn).window = s.window := by simp only [State.popTurn]
@[simp] theorem popTurn_turns (s : State) : (s.popTurn).turns = s.turns.tail := by simp only [State.popTurn]
@[simp] theorem popTurn_host (s : State) : (s.popTurn).host = s.host := by simp only [State.popTurn]

@[simp] theorem advance_H (s : State) : (advance s).H = s.H := by simp [advance]
@[simp] theorem advance_work (s : State) : (advance s).work = s.work := by simp [advance]
@[simp] theorem advance_W (s : State) : (advance s).W = s.W := by simp [advance]
@[simp] theorem advance_buf (s : State) : (advance s).buf = s.buf := by simp [advance]
@[simp] theorem advance_bufcnt (s : State) : (advance s).bufcnt = s.bufcnt := by simp [advance]
@[simp] theorem advance_len (s : State) : (advance s).len = s.len := by simp [advance]
@[simp] theorem advance_dataIn (s : State) : (advance s).dataIn = s.dataIn := by simp [advance]
@[simp] theorem advance_phase (s : State) : (advance s).phase = s.phase := by simp [advance]
@[simp] theorem advance_t (s : State) : (advance s).t = s.t := by simp [advance]
@[simp] theorem advance_pend2 (s : State) : (advance s).pend2 = s.pend2 := by simp [advance]
@[simp] theorem advance_fin (s : State) : (advance s).fin = s.fin := by simp [advance]
@[simp] theorem advance_done (s : State) : (advance s).done = s.done := by simp [advance]
@[simp] theorem advance_err (s : State) : (advance s).err = s.err := by simp [advance]
@[simp] theorem advance_errcode (s : State) : (advance s).errcode = s.errcode := by simp [advance]
@[simp] theorem advance_window (s : State) : (advance s).window = s.window := by simp [advance]
@[simp] theorem advance_turns (s : State) : (advance s).turns = s.turns := by simp [advance]

end Sys2Proof.Machine
end

