-- ==== Sys2Proof/Laws/Ops.lean ====
section
/-! SUPPORT. What each shared operation does, said once: the error record, the checks of a command, the block-wide buffer operations byte by byte, and UPDATE's absorption as one write of bytes with at most one LOAD. -/

namespace Sys2Proof.Machine

/-! ### Errors and checks (R202, R206) -/

/-- `raise Error(code)` as one record: ERR is 1 after it, and ERRCODE keeps the first error's code (R202). -/
theorem raiseError_eq (e : ErrCode) (s : State) :
    raiseError e s = { s with err := true, errcode := if s.err then s.errcode else e.code } := by
  obtain ⟨⟩ := s
  rename_i err _ _ _ _
  cases err <;> simp [raiseError]

theorem raiseError_of_err (e : ErrCode) {s : State} (h : s.err = true) : raiseError e s = s := by
  simp [raiseError, h]

@[simp] theorem busy_iff (s : State) : s.busy = true ↔ s.phase ≠ .idle := by simp [State.busy]

@[simp] theorem busy_eq_false (s : State) : s.busy = false ↔ s.phase = .idle := by simp [State.busy]

/-- All that a checked command can do: be refused with BUSY, be refused with SEQ, or act (R170, R206). -/
theorem checked_cases (needsOpen : Bool) (act : State → State) (s : State) :
    (s.phase ≠ .idle ∧ checked needsOpen act s = raiseError .busy s) ∨
    (s.phase = .idle ∧ needsOpen = true ∧ s.done = true ∧ checked needsOpen act s = raiseError .seq s) ∨
    (s.phase = .idle ∧ (needsOpen = false ∨ s.done = false) ∧ checked needsOpen act s = act s) := by
  unfold checked
  by_cases hb : s.phase = .idle
  · right
    cases needsOpen <;> cases hd : s.done <;> simp [hb, State.busy]
  · simp [hb, State.busy]

theorem checked_of_busy {s : State} (h : s.phase ≠ .idle) (needsOpen : Bool) (act : State → State) :
    checked needsOpen act s = raiseError .busy s := by simp [checked, State.busy, h]

theorem checked_of_done {s : State} (h : s.phase = .idle) (hd : s.done = true) (act : State → State) :
    checked true act s = raiseError .seq s := by simp [checked, State.busy, h, hd]

theorem checked_of_idle {s : State} (h : s.phase = .idle) (needsOpen : Bool) (act : State → State)
    (hd : needsOpen = false ∨ s.done = false) : checked needsOpen act s = act s := by
  rcases hd with hd | hd <;> simp [checked, State.busy, h, hd]

/-! ### The buffer, byte by byte (R106, R120) -/

theorem getElem_loadWords (B : Vector Byte 64) (W : Vector Word 64) (t : Nat) (h : t < 64) :
    (loadWords B W)[t] = if h' : t < 16 then blockWord B t h' else W[t] := by
  simp [loadWords]

theorem getElem_padMarker (n : Nat) (buf : Vector Byte 64) (j : Nat) (h : j < 64) :
    (padMarker n buf)[j] = if j < n then buf[j] else if j = n then 0x80 else 0x00 := by
  simp [padMarker]

theorem getElem_putLength (len : BitVec 64) (buf : Vector Byte 64) (j : Nat) (h : j < 64) :
    (putLength len buf)[j] = if j < 56 then buf[j] else lengthByte len (j - 56) := by
  simp [putLength]

theorem getElem_zeroData (buf : Vector Byte 64) (j : Nat) (h : j < 64) :
    (zeroData buf)[j] = if j < 56 then 0x00 else buf[j] := by
  simp [zeroData]

/-! ### UPDATE (R173) -/

/-- `buf` with the bytes `bs` written from index `c` on. -/
def writeBytes : List Byte → Nat → Vector Byte 64 → Vector Byte 64
  | [], _, v => v
  | b :: bs, c, v => writeBytes bs (c + 1) (v.setIfInBounds c b)

theorem getElem_writeBytes (bs : List Byte) (c : Nat) (v : Vector Byte 64) (j : Nat) (h : j < 64) :
    (writeBytes bs c v)[j] = if c ≤ j ∧ j < c + bs.length then bs.getD (j - c) 0 else v[j] := by
  induction bs generalizing c v with
  | nil => simp only [writeBytes, List.length_nil]; rw [if_neg (by omega)]
  | cons b bs ih =>
    simp only [writeBytes, ih, List.length_cons]
    rcases Nat.lt_trichotomy j c with hj | hj | hj
    · rw [if_neg (by omega), if_neg (by omega), Vector.getElem_setIfInBounds_ne h (by omega)]
    · subst hj
      rw [if_neg (by omega), if_pos (by omega)]
      simp
    · have e : j - c = (j - (c + 1)) + 1 := by omega
      rw [Vector.getElem_setIfInBounds_ne h (by omega)]
      by_cases hlt : j < c + 1 + bs.length
      · rw [if_pos (by omega), if_pos (by omega), e, List.getD_cons_succ]
      · rw [if_neg (by omega), if_neg (by omega)]

/-- Absorbing bytes that do not fill BUF only writes them (R173). -/
theorem absorbBytes_open (bs : List Byte) (c : Nat) (s : State) (h : c + bs.length < 64) :
    absorbBytes bs c s = ({ s with buf := writeBytes bs c s.buf }, c + bs.length) := by
  induction bs generalizing c s with
  | nil => simp [absorbBytes, writeBytes]
  | cons b bs ih =>
    simp only [List.length_cons] at h
    have hc : ¬ c + 1 = 64 := by omega
    simp only [absorbBytes, absorbByte, hc, if_false]
    rw [ih (c + 1) _ (by omega)]
    simp only [State.setBuf, writeBytes, List.length_cons]
    congr 1; omega

/-- Absorbing bytes that fill BUF once: the bytes up to index 63 are written, the block is LOADed, and the bytes left over
start the next block (R173). -/
theorem absorbBytes_fill (bs : List Byte) (c : Nat) (s : State) (hc : c < 64) (h : 64 ≤ c + bs.length)
    (h2 : c + bs.length < 128) :
    absorbBytes bs c s =
      ({ load { s with buf := writeBytes (bs.take (64 - c)) c s.buf } with
          buf := writeBytes (bs.drop (64 - c)) 0 (writeBytes (bs.take (64 - c)) c s.buf) },
        c + bs.length - 64) := by
  induction bs generalizing c s with
  | nil => simp at h; omega
  | cons b bs ih =>
    simp only [List.length_cons] at h h2
    by_cases hc1 : c + 1 = 64
    · obtain rfl : c = 63 := by omega
      simp only [absorbBytes, absorbByte, if_true]
      rw [absorbBytes_open _ _ _ (by omega)]
      simp only [State.setBuf, writeBytes, List.length_cons, List.take_succ_cons, List.take_zero, List.drop_succ_cons,
        List.drop_zero, load]
      congr 1; omega
    · simp only [absorbBytes, absorbByte, hc1, if_false]
      rw [ih (c + 1) _ (by omega) (by omega) (by omega)]
      obtain ⟨k, hk⟩ : ∃ k, 64 - c = k + 1 := ⟨63 - c, by omega⟩
      have hk' : 64 - (c + 1) = k := by omega
      simp only [State.setBuf, hk, hk', List.take_succ_cons, List.drop_succ_cons, writeBytes, List.length_cons, load]
      congr 1; omega

@[simp] theorem length_updateBytes (n : Nat) (w : Word) : (updateBytes n w).length = n := by simp [updateBytes]

theorem getD_updateBytes (n : Nat) (w : Word) (j : Nat) (h : j < n) : (updateBytes n w).getD j 0 = wordByte w j := by
  simp [updateBytes, h]

/-- The count UPDATE's loop ends with (R173). -/
theorem absorbBytes_count (bs : List Byte) (c : Nat) (s : State) (hc : c < 64) (h : c + bs.length < 128) :
    (absorbBytes bs c s).2 = (c + bs.length) % 64 := by
  by_cases h' : c + bs.length < 64
  · rw [absorbBytes_open _ _ _ h']; simp only; omega
  · rw [absorbBytes_fill _ _ _ hc (by omega) h]; simp only; omega

theorem absorbUpdate_bufcnt (n : Nat) (s : State) (hn : n ≤ 4) :
    (absorbUpdate n s).bufcnt = BitVec.ofNat 6 ((s.bufcnt.toNat + n) % 64) := by
  have := s.bufcnt.isLt
  simp only [absorbUpdate]
  rw [absorbBytes_count _ _ _ (by omega) (by rw [length_updateBytes]; omega), length_updateBytes]

/-- UPDATE starts a job exactly when the block fills (R173, R176). -/
theorem absorbUpdate_phase (n : Nat) (s : State) (hn : n ≤ 4) :
    (absorbUpdate n s).phase = if 64 ≤ s.bufcnt.toNat + n then .sched else s.phase := by
  have := s.bufcnt.isLt
  simp only [absorbUpdate]
  by_cases h : s.bufcnt.toNat + n < 64
  · rw [absorbBytes_open _ _ _ (by simpa using h)]; simp [Nat.not_le.mpr h]
  · rw [absorbBytes_fill _ _ _ (by omega) (by rw [length_updateBytes]; omega) (by rw [length_updateBytes]; omega)]
    simp [Nat.not_lt.mp h]

theorem absorbBytes_W_high (bs : List Byte) (c : Nat) (s : State) (k : Nat) (h : k < 64) (h16 : 16 ≤ k) :
    (absorbBytes bs c s).1.W[k] = s.W[k] := by
  induction bs generalizing c s with
  | nil => rfl
  | cons b bs ih =>
    simp only [absorbBytes, ih]
    unfold absorbByte
    split
    · simp only [load_W, getElem_loadWords, setBuf_W]; rw [dif_neg (by omega)]
    · simp

theorem padFinal_W_high (s : State) (k : Nat) (h : k < 64) (h16 : 16 ≤ k) : (padFinal s).W[k] = s.W[k] := by
  unfold padFinal padBlocks
  split <;> simp only [load] <;> rw [getElem_loadWords, dif_neg (by omega)]

/-! ### Bytes and words (R12) -/

theorem be32_append (b0 b1 b2 b3 : Byte) : be32 b0 b1 b2 b3 = b0 ++ b1 ++ b2 ++ b3 := by
  apply BitVec.eq_of_getLsbD_eq
  intro i hi
  simp only [be32, BitVec.getLsbD_or, BitVec.getLsbD_shiftLeft, BitVec.getLsbD_setWidth, BitVec.getLsbD_append]
  interval_cases i <;> simp

/-- The first four bytes of a length field are its high word (R120). -/
theorem lengthByte_high (v : BitVec 64) :
    lengthByte v 0 ++ lengthByte v 1 ++ lengthByte v 2 ++ lengthByte v 3 = v.extractLsb' 32 32 := by
  apply BitVec.eq_of_getLsbD_eq
  intro i hi
  simp only [lengthByte, BitVec.getLsbD_append, BitVec.getLsbD_extractLsb']
  interval_cases i <;> simp

/-- The last four bytes of a length field are its low word (R120). -/
theorem lengthByte_low (v : BitVec 64) :
    lengthByte v 4 ++ lengthByte v 5 ++ lengthByte v 6 ++ lengthByte v 7 = v.extractLsb' 0 32 := by
  apply BitVec.eq_of_getLsbD_eq
  intro i hi
  simp only [lengthByte, BitVec.getLsbD_append, BitVec.getLsbD_extractLsb']
  interval_cases i <;> simp

end Sys2Proof.Machine
end

