-- ==== Sys2Proof/Laws/Reference.lean ====
section
/-! SUPPORT. Small lemmas of the reference functions and of runs of micro-steps: how runs compose, and which words of W the schedule depends on. -/

namespace Sys2Proof.Machine

/-! ### Runs of micro-steps -/

/-- Outcomes chained: the next step is taken where there is a next state. -/
def andThen (o : Host.Outcome State Fault Refusal) (f : State → Host.Outcome State Fault Refusal) :
    Host.Outcome State Fault Refusal :=
  match o with
  | .next s => f s
  | .fault r => .fault r
  | .refused r => .refused r

@[simp] theorem andThen_next (s : State) (f : State → Host.Outcome State Fault Refusal) :
    andThen (.next s) f = f s := rfl

theorem andThen_eq_next {o : Host.Outcome State Fault Refusal} {f : State → Host.Outcome State Fault Refusal} {t : State}
    (h : andThen o f = .next t) : ∃ s, o = .next s ∧ f s = .next t := by
  cases o with
  | next s => exact ⟨s, rfl, h⟩
  | fault r => cases h
  | refused r => cases h

theorem andThen_assoc (o : Host.Outcome State Fault Refusal) (f g : State → Host.Outcome State Fault Refusal) :
    andThen (andThen o f) g = andThen o fun s => andThen (f s) g := by cases o <;> rfl

theorem coreSteps_cons (k : Nat) (s : State) : coreSteps (k + 1) s = andThen (coreStep s) (coreSteps k) := by
  simp only [coreSteps]; cases coreStep s <;> rfl

/-- Micro-steps in two runs. -/
theorem coreSteps_add (j k : Nat) (s : State) : coreSteps (j + k) s = andThen (coreSteps j s) (coreSteps k) := by
  induction j generalizing s with
  | zero => rw [Nat.zero_add]; rfl
  | succ j ih =>
    rw [Nat.add_right_comm, coreSteps_cons, coreSteps_cons, andThen_assoc]
    congr 1; funext t; exact ih t

/-- The last of several micro-steps. -/
theorem coreSteps_succ (k : Nat) (s : State) : coreSteps (k + 1) s = andThen (coreSteps k s) coreStep := by
  rw [coreSteps_add]
  congr 1; funext t; rw [coreSteps_cons]
  cases coreStep t <;> rfl

/-! ### The schedule (R123) -/

/-- Extending the schedule keeps the words below 16. -/
theorem getElem_extendWords_low (k : Nat) (W : Vector Word 64) (j : Nat) (h : j < 16) :
    (extendWords k W)[j] = W[j] := by
  induction k with
  | zero => rfl
  | succ k ih =>
    simp only [extendWords]
    split
    · rw [Vector.getElem_set_ne _ _ (by omega), ih]
    · exact ih

/-- The words below 16 + k after k extensions depend on the words below 16 only. -/
theorem extendWords_congr (k : Nat) (W W' : Vector Word 64) (hW : ∀ (j : Nat) (h : j < 16), W[j] = W'[j]) (j : Nat)
    (h : j < 64) (hj : j < 16 + k) : (extendWords k W)[j] = (extendWords k W')[j] := by
  induction k generalizing j with
  | zero => exact hW j (by omega)
  | succ k ih =>
    simp only [extendWords]
    split
    · rename_i hk
      rcases Nat.lt_or_ge j (16 + k) with hlt | hge
      · rw [Vector.getElem_set_ne _ _ (by omega), Vector.getElem_set_ne _ _ (by omega), ih j h hlt]
      · obtain rfl : j = 16 + k := by omega
        rw [Vector.getElem_set_self, Vector.getElem_set_self]
        unfold schedWord
        rw [ih (16 + k - 2) (by omega) (by omega), ih (16 + k - 7) (by omega) (by omega),
          ih (16 + k - 15) (by omega) (by omega), ih (16 + k - 16) (by omega) (by omega)]
    · exact ih j h (by omega)

/-- The schedule of a LOADed block does not depend on what W held before the LOAD (R23, R123). -/
theorem extendWords_load (B : Vector Byte 64) (W0 : Vector Word 64) :
    extendWords 48 (loadWords B W0) = scheduleOf B := by
  apply Vector.ext
  intro j h
  apply extendWords_congr _ _ _ _ _ h (by omega)
  intro i hi
  rw [getElem_loadWords, getElem_loadWords, dif_pos hi, dif_pos hi]

/-- The word an extension adds. -/
theorem getElem_extendWords_new (k : Nat) (W : Vector Word 64) (h : 16 + k < 64) :
    (extendWords (k + 1) W)[16 + k] = schedWord (extendWords k W) (16 + k) h := by
  simp only [extendWords, h, dif_pos, Vector.getElem_set_self]

/-- An extension keeps every other word. -/
theorem getElem_extendWords_old (k : Nat) (W : Vector Word 64) (j : Nat) (hj : j < 64) (h : j ≠ 16 + k) :
    (extendWords (k + 1) W)[j] = (extendWords k W)[j] := by
  simp only [extendWords]
  split
  · rw [Vector.getElem_set_ne _ _ (by omega)]
  · rfl

theorem roundsFrom_succ (W : Vector Word 64) (k : Nat) (r : Working) (h : k < 64) :
    roundsFrom W (k + 1) r = roundFn Config.K[k] W[k] (roundsFrom W k r) := by
  simp only [roundsFrom, h, dif_pos]

end Sys2Proof.Machine
end

