-- ==== Sys2Proof/Laws/Step.lean ====
section
/-! SUPPORT. What a step can do, said once: the inversion of step into the core's turn, a reset, a host write and everything else the host does, of a host write into its registers, of an accept into its outcomes, and of the core's turn into its micro-steps. -/

namespace Sys2Proof.Machine

/-! ### The accept (R170) -/

/-- UPDATE n with a count of 1 to 4 always answers a next state (R173). -/
theorem execUpdate_wf {n : Nat} (h : WellFormed (.update n)) (s : State) :
    exec (.update n) s = .next (checked true (absorbUpdate n) s) := if_pos h

/-- Accepting the word of a command is running that command (R170). -/
theorem accept_legal {w : Word} {i : Instr} (h : decode w = .legal i) (s : State) : accept w s = exec i s := by
  unfold accept; rw [h]

/-- Accepting a word that is no command records an error at most (R175). -/
theorem accept_illegal {w : Word} {why : IllegalWord} (h : decode w = .illegal why) (s : State) :
    accept w s = .next (refuseIllegal s) := by
  unfold accept; rw [h]

/-- Every command word is accepted in one step, with a next state (R170, R203, R204). -/
theorem accept_answers (w : Word) (s : State) : ∃ t, accept w s = .next t := by
  cases hd : decode w with
  | illegal why => exact ⟨_, accept_illegal hd s⟩
  | legal i =>
    have hw := decode_wf hd
    rw [accept_legal hd]
    cases i with
    | nop => exact ⟨_, rfl⟩
    | init => exact ⟨_, rfl⟩
    | update n => exact ⟨_, execUpdate_wf hw s⟩
    | final => exact ⟨_, rfl⟩

/-- All that an accept can do (R170 to R175, R203 to R206). -/
theorem accept_cases {w : Word} {s t : State} (h : accept w s = .next t) :
    (s.phase ≠ .idle ∧ t = raiseError .busy s) ∨
    (s.phase = .idle ∧ (∃ why, decode w = .illegal why) ∧ t = raiseError .illegal s) ∨
    (s.phase = .idle ∧ s.done = true ∧ ((∃ n, decode w = .legal (.update n)) ∨ decode w = .legal .final) ∧
      t = raiseError .seq s) ∨
    (s.phase = .idle ∧ decode w = .legal .nop ∧ t = s) ∨
    (s.phase = .idle ∧ decode w = .legal .init ∧ t = initMessage s) ∨
    (s.phase = .idle ∧ s.done = false ∧ ∃ n, decode w = .legal (.update n) ∧ 1 ≤ n ∧ n ≤ 4 ∧ t = absorbUpdate n s) ∨
    (s.phase = .idle ∧ s.done = false ∧ decode w = .legal .final ∧ t = padFinal s) := by
  by_cases hb : s.phase = .idle
  swap
  · left
    refine ⟨hb, ?_⟩
    cases hd : decode w with
    | illegal why =>
      rw [accept_illegal hd] at h; cases h; exact checked_of_busy hb _ _
    | legal i =>
      have hw := decode_wf hd
      rw [accept_legal hd] at h
      cases i with
      | nop => cases h; exact checked_of_busy hb _ _
      | init => cases h; exact checked_of_busy hb _ _
      | update n =>
        rw [execUpdate_wf hw] at h
        cases h; exact checked_of_busy hb _ _
      | final => cases h; exact checked_of_busy hb _ _
  · right
    cases hd : decode w with
    | illegal why =>
      rw [accept_illegal hd] at h; cases h
      exact .inl ⟨hb, ⟨why, rfl⟩, checked_of_idle hb _ _ (.inl rfl)⟩
    | legal i =>
      have hw := decode_wf hd
      rw [accept_legal hd] at h
      cases i with
      | nop => cases h; exact .inr (.inr (.inl ⟨hb, rfl, checked_of_idle hb _ _ (.inl rfl)⟩))
      | init => cases h; exact .inr (.inr (.inr (.inl ⟨hb, rfl, checked_of_idle hb _ _ (.inl rfl)⟩)))
      | update n =>
        rw [execUpdate_wf hw] at h
        cases h
        have hn := wf_update.mp hw
        cases hdn : s.done with
        | true => exact .inr (.inl ⟨hb, rfl, .inl ⟨n, rfl⟩, checked_of_done hb hdn _⟩)
        | false =>
          exact .inr (.inr (.inr (.inr (.inl ⟨hb, rfl, n, rfl, hn.1, hn.2, checked_of_idle hb _ _ (.inr hdn)⟩))))
      | final =>
        cases h
        cases hdn : s.done with
        | true => exact .inr (.inl ⟨hb, rfl, .inr rfl, checked_of_done hb hdn _⟩)
        | false => exact .inr (.inr (.inr (.inr (.inr ⟨hb, rfl, rfl, checked_of_idle hb _ _ (.inr hdn)⟩))))

/-! ### The window (R51, R54) -/

@[simp] theorem atOffset_offset (r : Reg) : Reg.atOffset r.offset = some r := by
  cases r with
  | digest i => revert i; decide
  | _ => rfl

theorem atOffset_eq_cmd {off : Nat} : Reg.atOffset off = some .cmd ↔ off = 0 := by
  constructor
  · intro h
    unfold Reg.atOffset at h
    split_ifs at h <;> first | assumption | simp at h
  · rintro rfl; rfl

theorem atOffset_eq_dataIn {off : Nat} : Reg.atOffset off = some .dataIn ↔ off = 8 := by
  constructor
  · intro h
    unfold Reg.atOffset at h
    split_ifs at h <;> first | assumption | simp at h
  · rintro rfl; rfl

/-- All that a write at an offset can do (R54): a command, DATA_IN, or nothing. -/
theorem memWrite_cases {off : Nat} {v : Word} {s t : State} (h : memWrite off v s = .next t) :
    (off = 0 ∧ accept v s = .next t) ∨ (off = 8 ∧ t = { s with dataIn := v }) ∨ (off ≠ 0 ∧ off ≠ 8 ∧ t = s) := by
  unfold memWrite at h
  cases hr : Reg.atOffset off with
  | none =>
    rw [hr] at h; cases h
    refine .inr (.inr ⟨?_, ?_, rfl⟩)
    · rintro rfl; simp [Reg.atOffset] at hr
    · rintro rfl; simp [Reg.atOffset] at hr
  | some r =>
    rw [hr] at h
    have h0 := @atOffset_eq_cmd off
    have h8 := @atOffset_eq_dataIn off
    rw [hr] at h0 h8
    cases r with
    | cmd => exact .inl ⟨by simpa using h0, h⟩
    | dataIn => cases h; exact .inr (.inl ⟨by simpa using h8, rfl⟩)
    | status => cases h; exact .inr (.inr ⟨by simpa using h0, by simpa using h8, rfl⟩)
    | lenLo => cases h; exact .inr (.inr ⟨by simpa using h0, by simpa using h8, rfl⟩)
    | lenHi => cases h; exact .inr (.inr ⟨by simpa using h0, by simpa using h8, rfl⟩)
    | digest i => cases h; exact .inr (.inr ⟨by simpa using h0, by simpa using h8, rfl⟩)

/-- Every aligned 32-bit write to the window has a next state (R54). -/
theorem memWrite_answers (off : Nat) (v : Word) (s : State) : ∃ t, memWrite off v s = .next t := by
  unfold memWrite
  cases Reg.atOffset off with
  | none => exact ⟨_, rfl⟩
  | some r =>
    cases r with
    | cmd => exact accept_answers v s
    | _ => exact ⟨_, rfl⟩

/-- An access that goes on was an aligned 32-bit access to the window (R50, R52). -/
theorem atWindow_next {addr size : Nat} {s t : State} {go : Nat → Host.Outcome State Fault Refusal}
    (h : atWindow addr size s go = .next t) :
    (s.base ≤ addr ∧ addr < s.base + 256 ∧ size = 4 ∧ (addr - s.base) % 4 = 0) ∧ go (addr - s.base) = .next t := by
  unfold atWindow at h
  split at h
  · cases h
  split at h
  · cases h
  split at h
  · cases h
  · exact ⟨⟨by omega, by omega, by omega, by omega⟩, h⟩

/-- A named register is reached at its offset (R51). -/
theorem atWindow_offset (r : Reg) (s : State) (go : Nat → Host.Outcome State Fault Refusal) :
    atWindow (s.base + r.offset) 4 s go = go r.offset := by
  have h1 : r.offset < 256 ∧ r.offset % 4 = 0 := by
    cases r with
    | digest i => have := i.isLt; simp only [Reg.offset]; omega
    | _ => simp [Reg.offset]
  unfold atWindow
  rw [if_neg (by omega), if_neg (by omega), if_neg (by omega)]
  congr 1; omega

/-- An aligned 32-bit access to the window goes on with its offset (R50, R52). -/
theorem atWindow_aligned {s : State} {off : Nat} (h : off < 256) (h4 : off % 4 = 0)
    (go : Nat → Host.Outcome State Fault Refusal) : atWindow (s.base + off) 4 s go = go off := by
  unfold atWindow
  rw [if_neg (by omega), if_neg (by omega), if_neg (by omega)]
  congr 1; omega

/-- Reading a named register's offset reads the register (R51, R53). -/
theorem memRead_offset (s : State) (r : Reg) : memRead s r.offset = readReg s r := by
  unfold memRead; rw [atOffset_offset]

/-- The host's side has no part in what the registers read. -/
@[simp] theorem readReg_setHost (s : State) (hs : HostSide) (r : Reg) : readReg (s.setHost hs) r = readReg s r := by
  cases r <;> simp [readReg, State.status, State.busy, State.lenLo, State.lenHi]

@[simp] theorem base_setHost (s : State) (hs : HostSide) : (s.setHost hs).base = s.base := rfl

@[simp] theorem base_popTurn (s : State) : s.popTurn.base = s.base := rfl

@[simp] theorem base_advance (s : State) : (advance s).base = s.base := rfl

/-! ### The core's turn (R29) -/

/-- All that the core's turn can do (R29, R124, R146, R147). -/
theorem coreStep_cases {s t : State} (h : coreStep s = .next t) :
    (s.phase = .idle ∧ t = s) ∨ (s.phase = .sched ∧ 16 ≤ s.t.toNat ∧ t = schedStep s) ∨
    (s.phase = .round ∧ t = roundStep s) ∨ (s.phase = .fold ∧ t = foldStep s) := by
  unfold coreStep at h
  split at h
  · cases h; exact .inl ⟨‹_›, rfl⟩
  · split at h
    · cases h; exact .inr (.inl ⟨‹_›, ‹_›, rfl⟩)
    · cases h
  · cases h; exact .inr (.inr (.inl ⟨‹_›, rfl⟩))
  · cases h; exact .inr (.inr (.inr ⟨‹_›, rfl⟩))

/-- All that FOLD's sequencing can do (R147). -/
theorem afterFold_cases (s : State) :
    (s.pend2 = true ∧ afterFold s = load { s with pend2 := false }) ∨
    (s.pend2 = false ∧ s.fin = true ∧ afterFold s = { s with fin := false, done := true, phase := .idle, t := 0 }) ∨
    (s.pend2 = false ∧ s.fin = false ∧ afterFold s = { s with phase := .idle, t := 0 }) := by
  unfold afterFold
  cases hp : s.pend2 <;> cases hf : s.fin <;> simp

/-! ### The host's program (R79) -/

/-- All that a statement can do: change the host only, or make the write it names. -/
theorem scriptStep_cases {s t : State} (h : scriptStep s = .next t) :
    (∃ off v hs, s.host.nextWrite = some (off, v) ∧ memWrite off v (s.setHost hs) = .next t) ∨
    (s.host.nextWrite = none ∧ ∃ hs, t = s.setHost hs) := by
  unfold scriptStep at h
  unfold HostSide.nextWrite
  cases hst : s.host.script[s.host.pos]? with
  | none => rw [hst] at h; cases h; exact .inr ⟨rfl, s.host, rfl⟩
  | some st =>
    rw [hst] at h
    cases st with
    | wr r v =>
      left
      simp only [runStmt, hostWrite] at h
      rw [← base_advance, atWindow_offset] at h
      exact ⟨_, _, _, rfl, h⟩
    | rd x r =>
      right
      refine ⟨rfl, ?_⟩
      simp only [runStmt, hostRead] at h
      have hb : s.base = (advance (s.setHost (s.host.setVar x (readReg s r)))).base := rfl
      rw [hb, atWindow_offset] at h
      cases h
      exact ⟨_, rfl⟩
    | bnz x m l =>
      right
      refine ⟨rfl, ?_⟩
      simp only [runStmt] at h
      split at h
      · split at h
        · cases h; exact ⟨_, rfl⟩
        · cases h
      · cases h; exact ⟨_, rfl⟩
    | label l => cases h; exact .inr ⟨rfl, _, rfl⟩
    | halt => cases h; exact .inr ⟨rfl, s.host, rfl⟩

/-! ### The step (R15, R61) -/

theorem popTurn_cons {s : State} {tu : Turn} {rest : List Turn} (h : s.turns = tu :: rest) :
    s.popTurn = { s with turns := rest } := by simp [State.popTurn, h]

/-- A listed turn is served on the state without it. -/
theorem step_cons {s : State} {tu : Turn} {rest : List Turn} (h : s.turns = tu :: rest) :
    step s = serve tu { s with turns := rest } := by
  unfold step takeTurn; rw [h]; simp only [popTurn_cons h]

/-- With no turn listed the core moves while a job runs, and else the host's program. -/
theorem step_nil {s : State} (h : s.turns = []) : step s = if s.busy then coreStep s else scriptStep s := by
  unfold step takeTurn; rw [h]; rfl

/-- All that a step can do (R15): the core's turn, a reset, a host write to the window, or something that changes the
host only. -/
theorem step_cases {s t : State} (h : step s = .next t) :
    (s.coreMoves = true ∧ s.resets = false ∧ s.nextWrite = none ∧ coreStep s.popTurn = .next t) ∨
    (s.coreMoves = false ∧ s.resets = true ∧ s.nextWrite = none ∧ t = resetCore s.popTurn) ∨
    (s.coreMoves = false ∧ s.resets = false ∧ ∃ off v hs, s.nextWrite = some (off, v) ∧
      memWrite off v (s.popTurn.setHost hs) = .next t) ∨
    (s.coreMoves = false ∧ s.resets = false ∧ s.nextWrite = none ∧ ∃ hs, t = s.popTurn.setHost hs) := by
  unfold step takeTurn at h
  unfold State.coreMoves State.resets State.nextWrite
  cases hts : s.turns with
  | nil =>
    have hp : s.popTurn = s := by
      obtain ⟨⟩ := s; simp only at hts; subst hts; rfl
    rw [hts] at h
    simp only [freeTurn] at h
    rw [hp]
    cases hb : s.busy with
    | true =>
      rw [hb] at h
      exact .inl ⟨rfl, rfl, by simp, h⟩
    | false =>
      rw [hb] at h
      rcases scriptStep_cases h with ⟨off, v, hs, hw, hm⟩ | ⟨hw, hs, ht⟩
      · exact .inr (.inr (.inl ⟨rfl, rfl, off, v, hs, by simpa using hw, hm⟩))
      · exact .inr (.inr (.inr ⟨rfl, rfl, by simpa using hw, hs, ht⟩))
  | cons tu rest =>
    rw [hts] at h
    simp only [serve] at h
    cases tu with
    | core => exact .inl ⟨rfl, rfl, rfl, h⟩
    | reset => cases h; exact .inr (.inl ⟨rfl, rfl, rfl, rfl⟩)
    | read addr size =>
      obtain ⟨-, h⟩ := atWindow_next h
      cases h; exact .inr (.inr (.inr ⟨rfl, rfl, rfl, _, rfl⟩))
    | write addr size v =>
      obtain ⟨hok, h⟩ := atWindow_next h
      rw [base_popTurn] at hok h
      exact .inr (.inr (.inl ⟨rfl, rfl, _, _, s.popTurn.host, if_pos hok, h⟩))
    | script =>
      rcases scriptStep_cases h with ⟨off, v, hs, hw, hm⟩ | ⟨hw, hs, ht⟩
      · exact .inr (.inr (.inl ⟨rfl, rfl, off, v, hs, by simpa using hw, hm⟩))
      · exact .inr (.inr (.inr ⟨rfl, rfl, by simpa using hw, hs, ht⟩))

/-! ### The step, with what it accepts and refuses -/

theorem nextCmdWord_of_write {s : State} {off : Nat} {v : Word} (h : s.nextWrite = some (off, v)) :
    s.nextCmdWord = if off = 0 then some v else none := by
  unfold State.nextCmdWord; rw [h]
  cases off with
  | zero => rfl
  | succ k => rfl

theorem nextCmdWord_none {s : State} (h : s.nextWrite = none) : s.nextCmdWord = none := by
  unfold State.nextCmdWord; rw [h]

/-- The effect of a command that is accepted and not refused (R176). -/
def acceptEffect (i : Instr) (s : State) : State :=
  match i with
  | .nop => s
  | .init => initMessage s
  | .update n => absorbUpdate n s
  | .final => padFinal s

/-- What one step did: one named case each. -/
inductive StepEffect (s t : State) : Prop where
  /-- A micro-step of the core, or nothing if it is idle. -/
  | core (moves : s.coreMoves = true) (noReset : s.resets = false) (noWrite : s.nextWrite = none)
      (noAccept : s.accepts = none) (noRefuse : s.refuses = none) (eff : coreStep s.popTurn = .next t)
  /-- A reset. -/
  | reset (still : s.coreMoves = false) (resets : s.resets = true) (noWrite : s.nextWrite = none)
      (noAccept : s.accepts = none) (noRefuse : s.refuses = none) (eff : t = resetCore s.popTurn)
  /-- A command word refused. -/
  | refused (w : Word) (e : ErrCode) (hs : HostSide) (still : s.coreMoves = false) (noReset : s.resets = false)
      (write : s.nextWrite = some (0, w)) (noAccept : s.accepts = none) (refuse : s.refuses = some e)
      (eff : t = raiseError e (s.popTurn.setHost hs))
  /-- A command accepted. -/
  | accepted (w : Word) (i : Instr) (hs : HostSide) (still : s.coreMoves = false) (noReset : s.resets = false)
      (write : s.nextWrite = some (0, w)) (accept : s.accepts = some i) (noRefuse : s.refuses = none)
      (idle : s.phase = .idle) (word : decode w = .legal i)
      (opened : (∃ n, i = .update n) ∨ i = .final → s.done = false)
      (eff : t = acceptEffect i (s.popTurn.setHost hs))
  /-- A write to DATA_IN. -/
  | dataIn (v : Word) (hs : HostSide) (still : s.coreMoves = false) (noReset : s.resets = false)
      (write : s.nextWrite = some (8, v)) (noAccept : s.accepts = none) (noRefuse : s.refuses = none)
      (eff : t = { s.popTurn.setHost hs with dataIn := v })
  /-- A read, an ignored write, or a statement of the host's that makes no access. -/
  | hostOnly (hs : HostSide) (still : s.coreMoves = false) (noReset : s.resets = false)
      (write : ∀ v, s.nextWrite ≠ some (8, v)) (noAccept : s.accepts = none) (noRefuse : s.refuses = none)
      (eff : t = s.popTurn.setHost hs)

theorem accepts_refuses_none {s : State} (h : s.nextCmdWord = none) : s.accepts = none ∧ s.refuses = none := by
  unfold State.accepts State.refuses; rw [h]; exact ⟨rfl, rfl⟩

theorem accepts_of_busy {s : State} (h : s.phase ≠ .idle) : s.accepts = none := by
  unfold State.accepts
  have hb : s.busy = true := by simpa using h
  split
  · rfl
  · split
    · rfl
    · rw [hb]; rfl

/-- What an accept does is what `accepts` and `refuses` say it will do. -/
theorem accept_effect {s t : State} {w : Word} {hs : HostSide} (hc : s.coreMoves = false) (hr : s.resets = false)
    (hw : s.nextWrite = some (0, w)) (ha : accept w (s.popTurn.setHost hs) = .next t) : StepEffect s t := by
  have hcw : s.nextCmdWord = some w := nextCmdWord_of_write hw
  have hidle : s.phase = .idle → s.busy = false := by simp
  rcases accept_cases ha with ⟨hb, ht⟩ | ⟨hb, ⟨why, hd⟩, ht⟩ | ⟨hb, hdn, hi, ht⟩ | ⟨hb, hd, ht⟩ | ⟨hb, hd, ht⟩ |
    ⟨hb, hdn, n, hd, -, -, ht⟩ | ⟨hb, hdn, hd, ht⟩
  all_goals simp only [setHost_phase, popTurn_phase, setHost_done, popTurn_done] at *
  · exact .refused w .busy hs hc hr hw (accepts_of_busy hb) (by simp [State.refuses, hcw, State.busy, hb]) ht
  · exact .refused w .illegal hs hc hr hw (by simp [State.accepts, hcw, hd])
      (by simp [State.refuses, hcw, hidle hb, hd]) ht
  · refine .refused w .seq hs hc hr hw ?_ ?_ ht
    · rcases hi with ⟨n, hi⟩ | hi <;> simp [State.accepts, hcw, hidle hb, hi, hdn]
    · rcases hi with ⟨n, hi⟩ | hi <;> simp [State.refuses, hcw, hidle hb, hi, hdn]
  · exact .accepted w .nop hs hc hr hw (by simp [State.accepts, hcw, hidle hb, hd])
      (by simp [State.refuses, hcw, hidle hb, hd]) hb hd (by simp) ht
  · exact .accepted w .init hs hc hr hw (by simp [State.accepts, hcw, hidle hb, hd])
      (by simp [State.refuses, hcw, hidle hb, hd]) hb hd (by simp) ht
  · exact .accepted w (.update n) hs hc hr hw (by simp [State.accepts, hcw, hidle hb, hd, hdn])
      (by simp [State.refuses, hcw, hidle hb, hd, hdn]) hb hd (fun _ => hdn) ht
  · exact .accepted w .final hs hc hr hw (by simp [State.accepts, hcw, hidle hb, hd, hdn])
      (by simp [State.refuses, hcw, hidle hb, hd, hdn]) hb hd (fun _ => hdn) ht

/-- Every step that answers a next state is one of the named cases. -/
theorem step_effect {s t : State} (h : step s = .next t) : StepEffect s t := by
  rcases step_cases h with ⟨hc, hr, hw, hs⟩ | ⟨hc, hr, hw, hs⟩ | ⟨hc, hr, off, v, hs, hw, hm⟩ | ⟨hc, hr, hw, hs, ht⟩
  · have hn := accepts_refuses_none (nextCmdWord_none hw)
    exact .core hc hr hw hn.1 hn.2 hs
  · have hn := accepts_refuses_none (nextCmdWord_none hw)
    exact .reset hc hr hw hn.1 hn.2 hs
  · rcases memWrite_cases hm with ⟨rfl, ha⟩ | ⟨rfl, ht⟩ | ⟨h0, h8, ht⟩
    · exact accept_effect hc hr hw ha
    · have hn := accepts_refuses_none (by rw [nextCmdWord_of_write hw]; rfl)
      exact .dataIn v hs hc hr hw hn.1 hn.2 ht
    · have hn := accepts_refuses_none (by rw [nextCmdWord_of_write hw, if_neg h0])
      exact .hostOnly hs hc hr (by rw [hw]; rintro v' ⟨⟩; exact h8 rfl) hn.1 hn.2 ht
  · have hn := accepts_refuses_none (nextCmdWord_none hw)
    exact .hostOnly hs hc hr (by simp [hw]) hn.1 hn.2 ht

/-! ### Runs of steps -/

theorem run_of_next (M : Host.Core) (k : Nat) (s t : M.State) (h : M.step s = .next t) :
    M.run (k + 1) s = M.run k t := by
  conv_lhs => unfold Host.Core.run
  rw [h]

theorem run_of_fault (M : Host.Core) (k : Nat) (s : M.State) (r : M.Fault) (h : M.step s = .fault r) :
    M.run (k + 1) s = .fault r := by
  conv_lhs => unfold Host.Core.run
  rw [h]

theorem run_of_refused (M : Host.Core) (k : Nat) (s : M.State) (r : M.Refusal) (h : M.step s = .refused r) :
    M.run (k + 1) s = .refused r := by
  conv_lhs => unfold Host.Core.run
  rw [h]

/-- The first of several steps. -/
theorem run_next {s t : State} (h : step s = .next t) (k : Nat) :
    Host.Core.run Sys2Proof.core (k + 1) s = Host.Core.run Sys2Proof.core k t :=
  run_of_next Sys2Proof.core k s t h

/-- A run that goes on has a first step. -/
theorem run_succ {s t : State} {k : Nat} (h : Host.Core.run Sys2Proof.core (k + 1) s = .next t) :
    ∃ u, step s = .next u ∧ Host.Core.run Sys2Proof.core k u = .next t := by
  cases hs : step s with
  | next u => exact ⟨u, rfl, (run_next hs k).symm.trans h⟩
  | fault r => exact nomatch (run_of_fault Sys2Proof.core k s r hs).symm.trans h
  | refused r => exact nomatch (run_of_refused Sys2Proof.core k s r hs).symm.trans h

/-- Steps in two runs. -/
theorem run_add {s t : State} (j : Nat) (h : Host.Core.run Sys2Proof.core j s = .next t) (k : Nat) :
    Host.Core.run Sys2Proof.core (j + k) s = Host.Core.run Sys2Proof.core k t := by
  induction j generalizing s with
  | zero => rw [Nat.zero_add]; cases h; rfl
  | succ j ih =>
    obtain ⟨u, hs, h⟩ := run_succ h
    rw [Nat.add_right_comm]
    exact (run_next hs (j + k)).trans (ih h)

end Sys2Proof.Machine
end

