-- ==== Sys2Proof/Laws/Message.lean ====
section
/-! SUPPORT. Small lemmas for the statements about whole messages: padding and blocks as lists, the chain of hash states, which fields `Represents` reads, the host's statements as equations, and the core's turn beside the host. -/

namespace Sys2Proof.Machine

/-! ### FINAL and UPDATE as one record each (R106, R173) -/

/-- FINAL's padding when the length fits in the block (R106). -/
theorem padFinal_one {s : State} (h : s.bufcnt.toNat ≤ 55) :
    padFinal s = { s with
      buf := putLength s.len (padMarker s.bufcnt.toNat s.buf),
      W := loadWords (putLength s.len (padMarker s.bufcnt.toNat s.buf)) s.W,
      work := Working.ofHash s.H, phase := .sched, t := 16, pend2 := false, bufcnt := 0, fin := true } := by
  unfold padFinal padBlocks; rw [if_pos h]; simp only [load]

/-- FINAL's padding when it spills into a second block (R106). -/
theorem padFinal_two {s : State} (h : 56 ≤ s.bufcnt.toNat) :
    padFinal s = { s with
      buf := putLength s.len (zeroData (padMarker s.bufcnt.toNat s.buf)),
      W := loadWords (padMarker s.bufcnt.toNat s.buf) s.W,
      work := Working.ofHash s.H, phase := .sched, t := 16, pend2 := true, bufcnt := 0, fin := true } := by
  unfold padFinal padBlocks; rw [if_neg (by omega)]; simp only [load]

/-! ### Padding and blocks (R101, R104) -/

/-- The `while` of pad ends with the `k` zero bytes that reach 56 modulo 64 (R101, R102). -/
theorem padZeros_eq (k fuel : Nat) (p : List Byte) (hk : k < fuel) (h : (p.length + k) % 64 = 56) (hlt : k < 64) :
    padZeros fuel p = p ++ List.replicate k 0 := by
  induction fuel generalizing k p with
  | zero => omega
  | succ f ih =>
    unfold padZeros
    cases k with
    | zero => rw [if_pos (by omega)]; simp
    | succ k =>
      rw [if_neg (by omega), ih k (p ++ [0]) (by omega) (by simp; omega) (by omega)]
      simp [List.replicate_succ]

@[simp] theorem length_be64Bytes (v : BitVec 64) : (be64Bytes v).length = 8 := by simp [be64Bytes]

theorem getD_be64Bytes (v : BitVec 64) (j : Nat) (h : j < 8) : (be64Bytes v).getD j 0 = lengthByte v j := by
  simp [be64Bytes, h]

theorem getElem_blockAt (p : List Byte) (i j : Nat) (h : j < 64) : (blockAt p i)[j] = p.getD (64 * i + j) 0 := by
  simp [blockAt]

/-- A full block does not depend on the bytes after it. -/
theorem blockAt_append (m x : List Byte) (k : Nat) (h : 64 * k + 64 ≤ m.length) :
    blockAt (m ++ x) k = blockAt m k := by
  apply Vector.ext
  intro j hj
  rw [getElem_blockAt, getElem_blockAt]
  exact List.getD_append _ _ _ _ (by omega)

/-! ### The chain of hash states (R148, R149) -/

theorem chainValue_succ (m : List Byte) (k : Nat) :
    chainValue m (k + 1) = compress (chainValue m k) (blockAt m k) := by
  simp [chainValue, List.range_succ]

theorem chainValue_append (m x : List Byte) (k : Nat) (h : 64 * k ≤ m.length) :
    chainValue (m ++ x) k = chainValue m k := by
  induction k with
  | zero => simp only [chainValue, List.range_zero, List.map_nil, List.foldl_nil]
  | succ k ih => rw [chainValue_succ, chainValue_succ, ih (by omega), blockAt_append _ _ _ (by omega)]

/-- `Represents` reads these fields only: the host, the errors and DATA_IN have no part in it. -/
theorem Represents.congr {m : List Byte} {s t : State} (h : Represents m s) (hdone : t.done = s.done)
    (hfin : t.fin = s.fin) (hpend : t.pend2 = s.pend2) (hlen : t.len = s.len) (hcnt : t.bufcnt = s.bufcnt)
    (hbuf : t.buf = s.buf) (hphase : t.phase = s.phase) (hH : t.H = s.H) (hW : t.W = s.W) (hwork : t.work = s.work)
    (ht : t.t = s.t) : Represents m t := by
  obtain ⟨a, b, c, d, e, f, g, i⟩ := h
  refine ⟨by rw [hdone]; exact a, by rw [hfin]; exact b, by rw [hpend]; exact c, by rw [hlen]; exact d,
    by rw [hcnt]; exact e, by rw [hbuf]; exact f, by rw [hphase, hH]; exact g, ?_⟩
  rw [hphase, hH]
  intro hp
  obtain ⟨x, y, W0, z⟩ := i hp
  refine ⟨x, y, W0, ?_⟩
  unfold JobOn at z ⊢
  rw [hphase, hW, hwork, ht]; exact z

/-! ### The core's turn (R29) -/

theorem coreStep_idle {s : State} (h : s.phase = .idle) : coreStep s = .next s := by unfold coreStep; rw [h]

theorem coreSteps_idle (k : Nat) {s : State} (h : s.phase = .idle) : coreSteps k s = .next s := by
  induction k with
  | zero => rfl
  | succ k ih => rw [coreSteps_succ, ih, andThen_next, coreStep_idle h]

/-- Two runs of micro-steps from one state that both end idle end in the same state. -/
theorem coreSteps_idle_unique {a v w : State} {j k : Nat} (h1 : coreSteps j a = .next v) (h2 : coreSteps k a = .next w)
    (hv : v.phase = .idle) (hw : w.phase = .idle) : v = w := by
  have a1 : coreSteps (j + k) a = .next v := by rw [coreSteps_add, h1, andThen_next, coreSteps_idle k hv]
  have a2 : coreSteps (j + k) a = .next w := by rw [Nat.add_comm, coreSteps_add, h2, andThen_next, coreSteps_idle j hw]
  rw [a1] at a2; cases a2; rfl

/-- The core's turn leaves the turns, the host and the error record. -/
theorem coreStep_keeps {s t : State} (h : coreStep s = .next t) :
    t.turns = s.turns ∧ t.host = s.host ∧ t.err = s.err ∧ t.errcode = s.errcode := by
  rcases coreStep_cases h with ⟨_, rfl⟩ | ⟨_, _, rfl⟩ | ⟨_, rfl⟩ | ⟨_, rfl⟩ <;> simp

/-- How many micro-steps are left until the core is idle, if the first of them is enabled (R227). -/
def microStepsLeft (s : State) : Nat :=
  match s.phase with
  | .idle => 0
  | .sched => (64 - s.t.toNat) + 65 + (if s.pend2 then 113 else 0)
  | .round => (64 - s.t.toNat) + 1 + (if s.pend2 then 113 else 0)
  | .fold => 1 + (if s.pend2 then 113 else 0)

/-- Each micro-step of a running job is one step less to go. -/
theorem microStepsLeft_coreStep {s t : State} (hp : s.phase ≠ .idle) (h : coreStep s = .next t) :
    microStepsLeft t + 1 = microStepsLeft s := by
  have hlt := s.t.isLt
  have ne63 : s.t ≠ 63 → s.t.toNat ≠ 63 := fun hne e => hne (by apply BitVec.eq_of_toNat_eq; simpa using e)
  rcases coreStep_cases h with ⟨h', rfl⟩ | ⟨h', h16, rfl⟩ | ⟨h', rfl⟩ | ⟨h', rfl⟩
  · exact absurd h' hp
  · simp only [schedStep]
    split
    · rename_i e; simp [microStepsLeft, h', e]; omega
    · rename_i hne
      have := ne63 hne
      simp [microStepsLeft, h']; omega
  · simp only [roundStep]
    split
    · rename_i e; simp [microStepsLeft, h', e]; omega
    · rename_i hne
      have := ne63 hne
      simp [microStepsLeft, h']; omega
  · simp only [foldStep, afterFold]
    cases hpd : s.pend2 <;> cases hf : s.fin <;> simp [microStepsLeft, h', hpd]

/-- PHASE = SCHED comes with T ≥ 16, and the core's turn keeps it so (R29). -/
theorem coreStep_schedIndex {s t : State} (h : s.phase = .sched → 16 ≤ s.t.toNat) (hs : coreStep s = .next t) :
    t.phase = .sched → 16 ≤ t.t.toNat := by
  rcases coreStep_cases hs with ⟨_, rfl⟩ | ⟨hp, h16, rfl⟩ | ⟨hp, rfl⟩ | ⟨hp, rfl⟩
  · exact h
  · have hlt := s.t.isLt
    simp only [schedStep]
    split
    · simp
    · rename_i h63
      have : s.t.toNat ≠ 63 := fun e => h63 (by apply BitVec.eq_of_toNat_eq; simpa using e)
      intro _; simp; omega
  · simp only [roundStep]; split <;> simp [hp]
  · simp only [foldStep, afterFold]
    cases s.pend2 <;> cases s.fin <;> simp

/-- With T ≥ 16 in SCHED the core's turn has a next state (R29). -/
theorem coreStep_answers {s : State} (h : s.phase = .sched → 16 ≤ s.t.toNat) : ∃ t, coreStep s = .next t := by
  unfold coreStep
  cases hp : s.phase with
  | idle => exact ⟨_, rfl⟩
  | sched => exact ⟨_, by simp only; rw [if_pos (h hp)]⟩
  | round => exact ⟨_, rfl⟩
  | fold => exact ⟨_, rfl⟩

/-! ### The host's statements (R79) -/

theorem scriptStep_label {s : State} {l : Nat} (h : s.host.script[s.host.pos]? = some (.label l)) :
    scriptStep s = .next (advance s) := by
  unfold scriptStep; rw [h]; rfl

theorem scriptStep_rd {s : State} {x : Nat} {r : Reg} (h : s.host.script[s.host.pos]? = some (.rd x r)) :
    scriptStep s = .next (observe (readReg s r) (advance (s.setHost (s.host.setVar x (readReg s r))))) := by
  unfold scriptStep; rw [h]
  show hostRead ((advance (s.setHost (s.host.setVar x (readReg s r)))).base + r.offset) 4 _ = _
  unfold hostRead; rw [atWindow_offset, memRead_offset]; rfl

theorem scriptStep_wr {s : State} {v : Word} {r : Reg} (h : s.host.script[s.host.pos]? = some (.wr r v)) :
    scriptStep s = writeReg r v (advance s) := by
  unfold scriptStep; rw [h]
  show hostWrite ((advance s).base + r.offset) 4 v _ = _
  unfold hostWrite; rw [atWindow_offset]; unfold memWrite; rw [atOffset_offset]

theorem labelPos_append (l : Nat) (pre post : List Stmt) (h : ∀ st ∈ pre, st ≠ .label l) :
    labelPos l (pre ++ .label l :: post) = some (pre.length + 1) := by
  induction pre with
  | nil => simp [labelPos]
  | cons st pre ih =>
    simp only [List.cons_append, labelPos]
    rw [if_neg (h st List.mem_cons_self), ih (fun x hx => h x (List.mem_cons_of_mem _ hx))]
    simp

end Sys2Proof.Machine
end

