-- ==== Sys2Proof/Laws/PerInstr.lean ====
section
/-! SUPPORT. Per-instruction statements, one lemma per constructor: a command has a word exactly when it is well formed, and that word matches the command's own row of R73. -/

/-- A well-formed command has a word, and it matches the command's row of R73: `w & mask = match`. A command that is not
well formed has none (R78). -/
def Sys2Proof.Laws.EncodesInRow.Statement (i : Sys2Proof.Instr) : Prop :=
  if Sys2Proof.WellFormed i then ∃ w, Sys2Proof.encode i = some w ∧ w &&& i.row.mask = i.row.pattern
  else Sys2Proof.encode i = none

theorem Sys2Proof.Laws.EncodesInRow.nop : Sys2Proof.Laws.EncodesInRow.Statement .nop := ⟨_, rfl, by decide⟩

theorem Sys2Proof.Laws.EncodesInRow.init : Sys2Proof.Laws.EncodesInRow.Statement .init := ⟨_, rfl, by decide⟩

theorem Sys2Proof.Laws.EncodesInRow.update (n : Nat) : Sys2Proof.Laws.EncodesInRow.Statement (.update n) := by
  unfold Sys2Proof.Laws.EncodesInRow.Statement
  split
  · rename_i h
    refine ⟨_, Sys2Proof.encode_update_wf h, ?_⟩
    have hn := Sys2Proof.wf_update.mp h
    obtain rfl | rfl | rfl | rfl : n = 1 ∨ n = 2 ∨ n = 3 ∨ n = 4 := by omega
    all_goals decide
  · rename_i h
    exact Sys2Proof.encode_update_not_wf h

theorem Sys2Proof.Laws.EncodesInRow.final : Sys2Proof.Laws.EncodesInRow.Statement .final := ⟨_, rfl, by decide⟩
end

