-- ==== Sys2Proof/Laws/Script.lean ====
section
/-! SUPPORT. What the expansion of host programs answers (R78, R80). -/

namespace Sys2Proof.Machine

/-- A command with a word is the write of that word to CMD. -/
theorem command_of_encode {i : Instr} {w : Word} (h : encode i = some w) : command i = some (.wr .cmd w) := by
  simp [command, h]

/-- PUSH with a count of 1 to 4 is its two writes. -/
theorem pushStmts_of_count {n : Nat} (h : 1 ≤ n ∧ n ≤ 4) (v : Word) :
    pushStmts n v = some [.wr .dataIn v, .wr .cmd (0x00000002#32 ||| (BitVec.ofNat 32 (n - 1) <<< 4))] := by
  simp [pushStmts, command_of_encode (encode_update_wf (wf_update.mpr h))]

/-- Groups of 1 to 4 bytes are sent as a PUSH and a WAIT each, the labels counted upward. -/
theorem pushGroups_of_lengths (l : Nat) (gs : List (List Byte)) (h : ∀ g ∈ gs, 1 ≤ g.length ∧ g.length ≤ 4) :
    pushGroups l gs = some ((gs.zipIdx l).flatMap fun g =>
      [.wr .dataIn (groupWord g.1), .wr .cmd (0x00000002#32 ||| (BitVec.ofNat 32 (g.1.length - 1) <<< 4))] ++
        waitStmts g.2) := by
  induction gs generalizing l with
  | nil => rfl
  | cons g gs ih =>
    simp [pushGroups, pushStmts_of_count (h g List.mem_cons_self), ih (l + 1) fun x hx => h x (List.mem_cons_of_mem _ hx)]

/-- Items one after another expand exactly when each of them does. -/
theorem expandFrom_cons {l : Nat} {it : Item} {p : List Item} {sts : List Stmt} :
    expandFrom l (it :: p) = some sts ↔
      ∃ a b, it.expand l = some a ∧ expandFrom (l + it.labels) p = some b ∧ sts = a ++ b := by
  simp [expandFrom, Option.bind_eq_some_iff, eq_comm (a := sts)]

/-- Every item's label bound is at most the program's. -/
theorem labelBound_le_freshLabel {it : Item} {p : List Item} (h : it ∈ p) : it.labelBound ≤ freshLabel p := by
  induction p with
  | nil => cases h
  | cons x p ih =>
    rcases List.mem_cons.mp h with rfl | h
    · exact Nat.le_max_left _ _
    · exact Nat.le_trans (ih h) (Nat.le_max_right _ _)

end Sys2Proof.Machine
end

