-- ==== Sys2Proof/Tests/Slice0.lean ====
section
/-! SUPPORT. Tests with expected values from spec/95_test_vectors.md or computed by hand from the rules, and for every statement with hypotheses a theorem that shows a state and operands that meet them. -/

namespace Sys2Proof.Tests

open Sys2Proof Sys2Proof.Machine

/-! ### Which commands exist (R72, R78) -/

theorem test_wellFormed : WellFormed .nop ∧ WellFormed .init ∧ WellFormed .final ∧
    WellFormed (.update 1) ∧ WellFormed (.update 4) := by decide

/-- "`UPDATE 0` and `UPDATE 5` are not syntax" (R78). -/
theorem test_update_count_refused : ¬ WellFormed (.update 0) ∧ ¬ WellFormed (.update 5) := by decide

/-! ### Decoding, words written out bit by bit from R70 and R73: RSV (26 bits), NB, OP -/

theorem test_decode_nop : decode 0b00000000000000000000000000_00_0000 = .legal .nop := by decide

theorem test_decode_init : decode 0b00000000000000000000000000_00_0001 = .legal .init := by decide

theorem test_decode_update :
    decode 0b00000000000000000000000000_00_0010 = .legal (.update 1) ∧
    decode 0b00000000000000000000000000_01_0010 = .legal (.update 2) ∧
    decode 0b00000000000000000000000000_10_0010 = .legal (.update 3) ∧
    decode 0b00000000000000000000000000_11_0010 = .legal (.update 4) := by decide

theorem test_decode_final : decode 0b00000000000000000000000000_00_0011 = .legal .final := by decide

/-- The illegal words of V-CMD-1, and UPDATE with a reserved bit. -/
theorem test_decode_illegal :
    decode 0x00000004 = .illegal .reservedOp ∧ decode 0x00000010 = .illegal .countOnOtherCommand ∧
    decode 0x00000013 = .illegal .countOnOtherCommand ∧ decode 0x00000040 = .illegal .reservedBits ∧
    decode 0x80000001 = .illegal .reservedBits ∧ decode 0x00000042 = .illegal .reservedBits ∧
    decode 0x0000000F = .illegal .reservedOp := by decide

/-- The encodings column of R73. -/
theorem test_encode :
    encode .nop = some 0x00000000 ∧ encode .init = some 0x00000001 ∧ encode (.update 1) = some 0x00000002 ∧
    encode (.update 2) = some 0x00000012 ∧ encode (.update 3) = some 0x00000022 ∧
    encode (.update 4) = some 0x00000032 ∧ encode .final = some 0x00000003 := by decide

/-- UPDATE 0 and UPDATE 5 have no word, and a program with one of them, or with such a PUSH, does not expand (R78). -/
theorem test_no_encoding : encode (.update 0) = none ∧ encode (.update 5) = none ∧
    expandProgram [.wait, .command (.update 0)] = none ∧ expandProgram [.push 5 0] = none := by decide

/-- The end of P4: RETRY is label 0, so WAIT's label is 1, and both loops go to their own place. -/
theorem test_fresh_labels :
    expandProgram [.wait, .stmt (.bnz 8 0x4 0), .stmt (.label 0), .command .init] =
      some [.label 1, .rd 8 .status, .bnz 8 0x1 1, .bnz 8 0x4 0, .label 0, .wr .cmd 0x00000001] ∧
    labelPos 1 [.label 1, .rd 8 .status, .bnz 8 0x1 1, .bnz 8 0x4 0, .label 0, .wr .cmd 0x00000001] = some 1 := by
  decide

/-- Table words, and a word longer than a command. -/
theorem test_decodeTableWord :
    decodeTableWord 32 0x32 = some (.update 4) ∧ decodeTableWord 32 0x13 = none ∧ decodeTableWord 40 0x32 = none := by
  decide

/-! ### Word primitives (V-BIT-1, V-SIG-1, V-SIG-2) -/

theorem test_rotr_shr :
    rotr 0x80000000 31 = 0x00000001 ∧ rotr 0x12345678 8 = 0x78123456 ∧ rotr 0x12345678 0 = 0x12345678 ∧
    shr 0xFFFFFFFF 10 = 0x003FFFFF := by decide

theorem test_sigmas :
    smallSigma0 0x12345678 = 0xe7fce6ee ∧ smallSigma1 0x12345678 = 0xa1f78649 ∧
    bigSigma0 0x12345678 = 0x66146474 ∧ bigSigma1 0x12345678 = 0x3561abda := by decide

theorem test_ch_maj :
    ch 0x510e527f 0x9b05688c 0x1f83d9ab = 0x1f85c98c ∧ maj 0x6a09e667 0xbb67ae85 0x3c6ef372 = 0x3a6fe667 := by decide

/-! ### Small states -/

/-- A state with `c` bytes held, none with a value but 0, and `d` in DATA_IN. -/
def holding (c : Nat) (d : Word) : State :=
  { State.reset with bufcnt := BitVec.ofNat 6 c, len := BitVec.ofNat 64 (8 * c), dataIn := d }

/-- A state in phase `p` with index `t`, its block all zeros, its working registers a copy of H. -/
def working (p : Phase) (t : BitVec 6) : State :=
  { State.reset with phase := p, t := t, work := Working.ofHash Config.IV }

/-- A completed hash. -/
def finished : State := { State.reset with done := true }

/-- A state whose next step is the turn `tu`. -/
def next (tu : Turn) (s : State) : State := { s with turns := [tu] }

/-- The host about to write `w` to CMD. -/
def writing (w : Word) (s : State) : State := next (.write 0 4 w) s

/-- The host about to run the one statement `st`. -/
def saying (st : Stmt) : State := { State.reset with host := ⟨[st, .label 7], 0, [], []⟩ }

/-! ### The commands -/

/-- UPDATE 1 of "a" (V-CMD-3): the byte, LEN = 8, STATUS = 0x100. UPDATE 4 with 63 bytes held (V-CMD-7): W[15] ends with
the first byte, three bytes start the next block. -/
theorem test_update_absorbs : (absorbUpdate 1 (holding 0 0x61000000)).buf[0] = 0x61 ∧
    (absorbUpdate 1 (holding 0 0x61000000)).len = 8 ∧
    (absorbUpdate 1 (holding 0 0x61000000)).status = 0x00000100 ∧
    (absorbUpdate 4 (holding 63 0x3f404142)).W[15] = 0x0000003f ∧
    (absorbUpdate 4 (holding 63 0x3f404142)).buf[2] = 0x42 ∧
    (absorbUpdate 4 (holding 63 0x3f404142)).len = 0x218 ∧
    (absorbUpdate 4 (holding 63 0x3f404142)).status = 0x00000301 := by decide

/-- FINAL with 55 bytes held (V-PAD-2): 0x80 last before the length 0x1b8, one block. -/
theorem test_final_one : (padFinal (holding 55 0)).buf[55] = 0x80 ∧ (padFinal (holding 55 0)).W[15] = 0x000001b8 ∧
    (padFinal (holding 55 0)).pend2 = false ∧ (padFinal (holding 55 0)).status = 0x00000001 := by decide

/-- FINAL with 56 bytes held (V-PAD-2): the first block has no length, the second is zeros and 0x1c0. -/
theorem test_final_two : (padFinal (holding 56 0)).W[14] = 0x80000000 ∧ (padFinal (holding 56 0)).W[15] = 0 ∧
    (padFinal (holding 56 0)).buf[62] = 0x01 ∧ (padFinal (holding 56 0)).buf[63] = 0xc0 ∧
    (padFinal (holding 56 0)).pend2 = true := by decide

/-- INIT clears the error that NOP then leaves cleared (V-CMD-3). -/
theorem test_init_clears : (initMessage { holding 3 0 with err := true, errcode := 2 }).status = 0x00000000 ∧
    (initMessage { holding 3 0 with err := true, errcode := 2 }).len = 0 := by decide

/-- NOP while BUSY (V-CMD-7): STATUS 0x301 becomes 0x315. -/
theorem test_nop_busy : (checked false (fun s => s) { working .sched 16 with bufcnt := 3 }).status = 0x00000315 := by
  decide

/-- INIT while BUSY is dropped (V-CMD-5): STATUS 0x01 becomes 0x15. -/
theorem test_init_busy : (checked false initMessage (working .sched 16)).status = 0x00000015 := by decide

/-- UPDATE on a completed hash is SEQ (V-CMD-4), a second error is not recorded (V-CMD-3), and LEN wraps (V-PAD-3). -/
theorem test_update_limits : (checked true (absorbUpdate 1) finished).status = 0x00000036 ∧
    (checked true (absorbUpdate 1) { finished with err := true, errcode := 2 }).status = 0x00000026 ∧
    (absorbUpdate 1 { State.reset with len := 0xFFFFFFFFFFFFFFF8, dataIn := 0x41000000 }).len = 0 ∧
    (absorbUpdate 1 { State.reset with len := 0xFFFFFFFFFFFFFFF8, dataIn := 0x41000000 }).status = 0x00000100 := by
  decide

/-- An illegal word while idle is 2, while busy 1 (V-CMD-3, V-CMD-6). -/
theorem test_illegal : (refuseIllegal (holding 1 0)).status = 0x00000124 ∧
    (refuseIllegal (working .round 0)).errcode = 1 := by decide

/-! ### The micro-steps (V-SCH-2, V-CMP-2, V-CMP-3) -/

/-- W[17] of the "abc" block is 000f0000 (V-SCH-2). -/
theorem test_sched_word :
    schedWord ((Vector.replicate 64 0).set 0 0x61626380 |>.set 15 0x18) 17 (by decide) = 0x000f0000 := by decide

/-- Words of R24's table, by their row and column. -/
theorem test_round_constants : Config.K[0] = 0x428a2f98 ∧ Config.K[8] = 0xd807aa98 ∧ Config.K[23] = 0x76f988da ∧
    Config.K[63] = 0xc67178f2 := by decide

/-- ROUND(0) of the "abc" block (V-CMP-2). -/
theorem test_round : roundFn Config.K[0] 0x61626380 (Working.ofHash Config.IV) =
    ⟨0x5d6aebcd, 0x6a09e667, 0xbb67ae85, 0x3c6ef372, 0xfa2a4622, 0x510e527f, 0x9b05688c, 0x1f83d9ab⟩ := by decide

/-- FOLD of the "abc" block (V-CMP-3). -/
theorem test_fold : (foldStep { working .fold 63 with
      fin := true
      work := ⟨0x506e3058, 0xd39a2165, 0x04d24d6c, 0xb85e2ce9, 0x5ef50f24, 0xfb121210, 0x948d25b6, 0x961f4894⟩ }).H =
    #v[0xba7816bf, 0x8f01cfea, 0x414140de, 0x5dae2223, 0xb00361a3, 0x96177a9c, 0xb410ff61, 0xf20015ad] := by decide

/-- The sequencer's last steps of each phase. -/
theorem test_phases : (schedStep (working .sched 63)).phase = .round ∧ (schedStep (working .sched 63)).t = 0 ∧
    (roundStep (working .round 63)).phase = .fold ∧ (roundStep (working .round 63)).t = 63 ∧
    (foldStep { working .fold 63 with fin := true }).status = 0x00000002 := by decide

/-- The codes of PHASE (R29) and of the errors (R201). -/
theorem test_codes : Phase.idle.code = 0 ∧ Phase.sched.code = 1 ∧ Phase.round.code = 2 ∧ Phase.fold.code = 3 ∧
    ErrCode.busy.code = 1 ∧ ErrCode.illegal.code = 2 ∧ ErrCode.seq.code = 3 := by decide

/-! ### Padding and the digest text (V-PAD-1, V-DIG-2) -/

theorem test_pad_counts : zeroCount 0 = 55 ∧ zeroCount 55 = 0 ∧ zeroCount 56 = 63 ∧ zeroCount 119 = 0 ∧
    blockCount 55 = 1 ∧ blockCount 56 = 2 ∧ blockCount 119 = 2 ∧ blockCount 120 = 3 := by decide

theorem test_hex : hexWord 0xba7816bf = ['b', 'a', '7', '8', '1', '6', 'b', 'f'] ∧
    hexWord 0x0000000a = ['0', '0', '0', '0', '0', '0', '0', 'a'] := by decide

/-! ### The window (V-CMD-2) -/

theorem test_reads : memRead State.reset 0x04 = 0 ∧ memRead State.reset 0x20 = 0x6a09e667 ∧
    memRead State.reset 0x3C = 0x5be0cd19 ∧ memRead State.reset 0x14 = 0 ∧ memRead State.reset 0x40 = 0 := by decide

/-- Each access refused or faulted by name. -/
theorem test_access_stops :
    step (next (.read 0x04 1) State.reset) = .refused .accessWidth ∧
    step (next (.write 0x02 4 0) State.reset) = .refused .accessMisaligned ∧
    step (next (.read 0x100 4) State.reset) = .fault .outsideWindow := ⟨rfl, rfl, rfl⟩

/-- A BNZ that is taken to no label, and the core's turn in a state that no run reaches. -/
theorem test_other_stops :
    step { saying (.bnz 0 1 3) with host := ⟨[.bnz 0 1 3], 0, [(0, 1)], []⟩ } = .refused .noSuchLabel ∧
    coreStep (working .sched 15) = .fault .schedIndexBelow16 := ⟨rfl, rfl⟩

/-! ### Witnesses: for each statement with hypotheses, a state and operands that meet all of them -/

theorem test_meets_DecodeInvertsEncode : WellFormed .nop ∧ WellFormed .init ∧ WellFormed (.update 1) ∧
    WellFormed (.update 4) ∧ WellFormed .final := by decide

theorem test_meets_EncodeInvertsDecode : decode 0x00000032 = .legal (.update 4) := by decide

/-- A word of a row, a word of none, and one row that covers a word. -/
theorem test_meets_CommandsAreTheRowsOfTheTable : (Instr.update 1).row ∈ opcodeRows ∧
    (Instr.update 1).row.covers 0x00000012 = true ∧ Instr.final.row.covers 0x00000013 = false := by decide

/-- One word of each group of R75, and a word of two groups, each with the core idle. -/
theorem test_meets_IllegalWordsAreTheReservedOnes : State.reset.phase = .idle ∧
    decode 0x00000004 = .illegal .reservedOp ∧ decode 0x0000000F = .illegal .reservedOp ∧
    decode 0x00000041 = .illegal .reservedBits ∧ decode 0x80000002 = .illegal .reservedBits ∧
    decode 0x00000013 = .illegal .countOnOtherCommand ∧ decode 0x00000054 = .illegal .reservedOp := by decide

theorem test_meets_NopChangesNothing : (holding 3 0).phase = .idle ∧ (working .sched 16).phase ≠ .idle := by decide

theorem test_meets_InitStartsANewMessage : finished.phase = .idle ∧ (working .fold 63).phase ≠ .idle := by decide

/-- n = 1 into an empty buffer, and n = 4 up to 63 bytes. -/
theorem test_meets_UpdateBelowABlockStoresItsBytes :
    ((holding 0 0).phase = .idle ∧ (holding 0 0).done = false ∧ (holding 0 0).bufcnt.toNat + 1 < 64) ∧
    ((holding 59 0).phase = .idle ∧ (holding 59 0).done = false ∧ (holding 59 0).bufcnt.toNat + 4 < 64) := by decide

/-- Exactly full with n = 1 and n = 4, and three bytes left over. -/
theorem test_meets_UpdateThatFillsABlockLoadsIt :
    ((holding 63 0).phase = .idle ∧ (holding 63 0).done = false ∧ 64 ≤ (holding 63 0).bufcnt.toNat + 1) ∧
    ((holding 60 0).phase = .idle ∧ (holding 60 0).done = false ∧ 64 ≤ (holding 60 0).bufcnt.toNat + 4) ∧
    64 ≤ (holding 63 0).bufcnt.toNat + 4 := by decide

theorem test_meets_FinalPadsIntoOneBlock :
    ((holding 0 0).phase = .idle ∧ (holding 0 0).done = false ∧ (holding 0 0).bufcnt.toNat ≤ 55) ∧
    ((holding 55 0).phase = .idle ∧ (holding 55 0).done = false ∧ (holding 55 0).bufcnt.toNat ≤ 55) := by decide

theorem test_meets_FinalSpillsIntoASecondBlock :
    ((holding 56 0).phase = .idle ∧ (holding 56 0).done = false ∧ 56 ≤ (holding 56 0).bufcnt.toNat) ∧
    ((holding 63 0).phase = .idle ∧ (holding 63 0).done = false ∧ 56 ≤ (holding 63 0).bufcnt.toNat) := by decide

/-- Each command answers somewhere. -/
theorem test_meets_CommandsLeaveTheRest :
    (∃ t, exec .nop State.reset = .next t) ∧ (∃ t, exec .init (working .round 5) = .next t) ∧
    (∃ t, exec (.update 4) (holding 60 0) = .next t) ∧ ∃ t, exec .final (holding 56 0) = .next t :=
  ⟨⟨_, rfl⟩, ⟨_, rfl⟩, ⟨_, rfl⟩, ⟨_, rfl⟩⟩

theorem test_meets_CommandWhileBusyIsDropped : (working .sched 16).phase ≠ .idle ∧ (working .round 0).phase ≠ .idle ∧
    (working .fold 63).phase ≠ .idle := by decide

theorem test_meets_FinishedMessageIsNotExtended : finished.phase = .idle ∧ finished.done = true ∧
    decode 0x00000002 = .legal (.update 1) ∧ decode 0x00000003 = .legal .final := by decide

theorem test_meets_ChecksComeInAFixedOrder :
    (∃ t, coreStep (working .sched 63) = .next t) ∧ (∃ t, coreStep (working .round 63) = .next t) ∧
    ∃ t, coreStep (working .fold 63) = .next t := ⟨⟨_, rfl⟩, ⟨_, rfl⟩, ⟨_, rfl⟩⟩

theorem test_meets_CountOutsideOneToFourIsNoCommand : (0 = 0 ∨ 5 ≤ 0) ∧ (5 = 0 ∨ 5 ≤ 5) ∧
    Item.command (.update 0) ∈ [Item.command (.update 0)] ∧ Item.push 5 9 ∈ [Item.wait, Item.push 5 9] := by decide

/-- A step of each kind, as the statements about every step tell them apart: a reset, the accept of each command, a
refusal of each kind, a write to DATA_IN, and the core's turn. -/
theorem test_meets_step_kinds :
    (next .reset finished).resets = true ∧ (writing 0x00000001 finished).accepts = some .init ∧
    (writing 0x00000032 (holding 60 0)).accepts = some (.update 4) ∧
    (writing 0x00000003 (holding 56 0)).accepts = some .final ∧
    (writing 0x00000000 finished).accepts = some .nop ∧
    (writing 0x00000003 finished).refuses = some .seq ∧ (writing 0x00000013 finished).refuses = some .illegal ∧
    (writing 0x00000013 (working .round 3)).refuses = some .busy ∧
    (next (.write 8 4 5) finished).nextWrite = some (8, 5) ∧ (next .core (working .fold 63)).coreMoves = true ∧
    (working .fold 63).coreMoves = true := by decide

/-- Those steps have a next state, which the statements about LEN, H, DATA_IN, BUFCNT, BUSY, DONE and ERR speak of. -/
theorem test_meets_step_answers :
    (∃ t, step (next .reset finished) = .next t) ∧ (∃ t, step (writing 0x00000001 finished) = .next t) ∧
    (∃ t, step (writing 0x00000032 (holding 60 0)) = .next t) ∧
    (∃ t, step (writing 0x00000003 (holding 56 0)) = .next t) ∧
    (∃ t, step (writing 0x00000003 finished) = .next t) ∧ (∃ t, step (next (.write 8 4 5) finished) = .next t) ∧
    ∃ t, step (next .core (working .fold 63)) = .next t :=
  ⟨⟨_, rfl⟩, ⟨_, rfl⟩, ⟨_, rfl⟩, ⟨_, rfl⟩, ⟨_, rfl⟩, ⟨_, rfl⟩, ⟨_, rfl⟩⟩

/-- The last FOLD of a message, whose step sets DONE and clears BUSY, and a FOLD with PEND2. -/
theorem test_meets_last_fold :
    (next .core { working .fold 63 with fin := true }).coreMoves = true ∧
    (next .core { working .fold 63 with fin := true }).pend2 = false ∧
    (next .core { working .fold 63 with fin := true, pend2 := true }).pend2 = true := by decide

theorem test_meets_ContractKeepsBusyErrorsAway :
    ((writing 0x00000003 (holding 3 0)).nextCmdWord.isSome = true ∧ (writing 0x00000003 (holding 3 0)).busy = false ∧
      (writing 0x00000003 (holding 3 0)).errcode ≠ 1) ∧
    (∃ t, step (writing 0x00000003 (holding 3 0)) = .next t) := ⟨by decide, ⟨_, rfl⟩⟩

theorem test_meets_StepRunsTheDecodedCommand :
    decode 0x00000003 = .legal .final ∧ (writing 0x00000003 finished).turns = .write finished.base 4 0x00000003 :: [] ∧
    (saying (.wr .cmd 0x00000003)).turns = [] ∧ (saying (.wr .cmd 0x00000003)).phase = .idle ∧
    (saying (.wr .cmd 0x00000003)).host.script[(saying (.wr .cmd 0x00000003)).host.pos]? =
      some (.wr .cmd 0x00000003) := by decide

theorem test_meets_CoreTurnIsOneMicroStep : (next .core finished).turns = .core :: [] ∧
    ((working .round 9).turns = [] ∧ (working .round 9).phase ≠ .idle) ∧ finished.phase = .idle := by decide

/-- A read at the first and the last offset, and both ends of the reserved ranges. -/
theorem test_meets_WindowReadsTheRegisters :
    (next (.read (finished.base + 0xFC) 4) finished).turns = .read (finished.base + 0xFC) 4 :: [] ∧
    0xFC < 256 ∧ 0xFC % 4 = 0 ∧ 0x14 % 4 = 0 ∧ 0x1C % 4 = 0 ∧ 0x40 % 4 = 0 := by decide

theorem test_meets_WritesElsewhereAreIgnored :
    (next (.write (finished.base + 0x04) 4 9) finished).turns = .write (finished.base + 0x04) 4 9 :: [] ∧
    0x04 < 256 ∧ 0x04 % 4 = 0 ∧ 0x04 ≠ 0 ∧ 0xFC % 4 = 0 ∧ 0x08 % 4 = 0 := by decide

/-- A byte read of the first register, and a misaligned write at the end of the window. -/
theorem test_meets_OtherAccessesHaveNoStep :
    (finished.base ≤ 0x00 ∧ 0x00 < finished.base + 256 ∧ 1 ≠ 4 ∧ (next (.read 0 1) finished).turns = .read 0 1 :: []) ∧
    (finished.base ≤ 0xFF ∧ 0xFF < finished.base + 256 ∧ (0xFF - finished.base) % 4 ≠ 0 ∧
      (next (.write 0xFF 4 9) finished).turns = .write 0xFF 4 9 :: []) := by decide

/-- Two states that differ in every hidden register only. -/
theorem test_meets_ReadsDependOnTheVisibleStateOnly :
    let s := working .sched 16
    let s' : State := { working .round 3 with
      work := ⟨1, 2, 3, 4, 5, 6, 7, 8⟩, W := Vector.replicate 64 9, buf := Vector.replicate 64 9, fin := true, pend2 := true }
    s.H = s'.H ∧ s.len = s'.len ∧ s.dataIn = s'.dataIn ∧ s.busy = s'.busy ∧ s.done = s'.done ∧ s.err = s'.err ∧
      s.errcode = s'.errcode ∧ s.bufcnt = s'.bufcnt ∧ s ≠ s' := by decide

theorem test_meets_HostStatementsDoWhatTheySay :
    (saying (.wr .dataIn 5)).host.script[(saying (.wr .dataIn 5)).host.pos]? = some (.wr .dataIn 5) ∧
    (saying (.rd 2 .status)).host.script[(saying (.rd 2 .status)).host.pos]? = some (.rd 2 .status) ∧
    (saying (.bnz 2 1 7)).host.script[(saying (.bnz 2 1 7)).host.pos]? = some (.bnz 2 1 7) ∧
    labelPos 7 (saying (.bnz 2 1 7)).host.script = some 2 ∧
    (saying (.bnz 2 1 3)).host.script[(saying (.bnz 2 1 3)).host.pos]? = some (.bnz 2 1 3) ∧
    labelPos 3 (saying (.bnz 2 1 3)).host.script = none ∧
    (saying (.label 3)).host.script[(saying (.label 3)).host.pos]? = some (.label 3) ∧
    (saying .halt).host.script[(saying .halt).host.pos]? = some .halt := by decide

theorem test_meets_ResetRestoresEveryElement :
    (next .reset (working .round 40)).turns = .reset :: [] ∧ (working .round 40).phase ≠ .idle := by decide

theorem reset_inv : State.reset.Inv := by constructor <;> decide

/-- A job with its block just loaded is a legal state. -/
theorem sched_inv : (working .sched 16).Inv := by constructor <;> decide

theorem test_meets_InitGivesTheResetState : State.reset.Inv ∧ State.reset.phase = .idle := ⟨reset_inv, rfl⟩

/-- The first and the last SCHED step. -/
theorem test_meets_SchedWritesOneWord :
    ((working .sched 16).phase = .sched ∧ 16 ≤ (working .sched 16).t.toNat) ∧
    ((working .sched 63).phase = .sched ∧ 16 ≤ (working .sched 63).t.toNat ∧ (working .sched 63).t = 63) := by decide

theorem test_meets_RoundMovesTheWorkingRegisters : (working .round 0).phase = .round ∧ (working .round 0).t ≠ 63 ∧
    (working .round 63).phase = .round ∧ (working .round 63).t = 63 := by decide

/-- FOLD with PEND2, with FIN, and with neither. -/
theorem test_meets_FoldAddsAndSequences :
    (working .fold 63).phase = .fold ∧ { working .fold 63 with fin := true, pend2 := true }.pend2 = true ∧
    ({ working .fold 63 with fin := true }.pend2 = false ∧ { working .fold 63 with fin := true }.fin = true) ∧
    ((working .fold 63).pend2 = false ∧ (working .fold 63).fin = false) := by decide

/-- A job on the block of all zeros, whose words are zeros too. -/
theorem test_meets_FortyEightStepsGiveTheSchedule :
    (working .sched 16).phase = .sched ∧ (working .sched 16).t = 16 ∧
    (working .sched 16).W = loadWords (Vector.replicate 64 0) (Vector.replicate 64 0) := by decide

/-- The same job, without and with a second padding block. -/
theorem test_meets_JobFoldsTheCompressedBlock :
    ((working .sched 16).phase = .sched ∧ (working .sched 16).t = 16 ∧
      (working .sched 16).W = loadWords (Vector.replicate 64 0) (Vector.replicate 64 0) ∧
      (working .sched 16).work = Working.ofHash (working .sched 16).H ∧ (working .sched 16).pend2 = false) ∧
    ({ working .sched 16 with fin := true, pend2 := true }.work =
        Working.ofHash { working .sched 16 with fin := true, pend2 := true }.H ∧
      { working .sched 16 with fin := true, pend2 := true }.pend2 = true) := by decide

/-- Each command from an idle state, UPDATE and FINAL on both sides of their limits. -/
theorem test_meets_CommandsTakeTheirMicroSteps :
    (∀ c ∈ [0, 55, 56, 59, 60, 63], (holding c 0).phase = .idle ∧ (holding c 0).pend2 = false ∧
      (holding c 0).done = false) ∧ WellFormed (.update 4) ∧
    (∃ t, exec (.update 4) (holding 59 0) = .next t) ∧ (∃ t, exec (.update 4) (holding 60 0) = .next t) ∧
    (∃ t, exec .final (holding 55 0) = .next t) ∧ (∃ t, exec .final (holding 56 0) = .next t) ∧
    (finished.done = true ∧ ∃ t, exec .init finished = .next t) :=
  ⟨by decide, by decide, ⟨_, rfl⟩, ⟨_, rfl⟩, ⟨_, rfl⟩, ⟨_, rfl⟩, rfl, ⟨_, rfl⟩⟩

theorem test_meets_BusyEndsWithinTwoJobs :
    (working .sched 16).Inv ∧ (working .sched 16).turns = [] ∧ (working .sched 16).phase ≠ .idle :=
  ⟨sched_inv, rfl, by decide⟩

theorem test_meets_CollapsedJobIsTheWholeJob : (working .sched 16).phase = .sched ∧ (working .sched 16).t = 16 := by
  decide

theorem test_meets_SlidingWindowIsTheSchedule : (0 ≤ 48 ∧ 0 < 16) ∧ (48 ≤ 48 ∧ 15 < 16) := by decide

theorem test_meets_JobIgnoresTheHost : ∃ t, coreSteps 2 (working .sched 63) = .next t := ⟨_, rfl⟩

theorem test_meets_EveryStepKeepsTheInvariants :
    (State.reset.Inv ∧ ∃ t, step State.reset = .next t) ∧
    ((working .sched 16).Inv ∧ ∃ t, step (working .sched 16) = .next t) :=
  ⟨⟨reset_inv, ⟨_, rfl⟩⟩, ⟨sched_inv, ⟨_, rfl⟩⟩⟩

theorem test_meets_DatapathNeverFaults : State.reset.Inv ∧ (working .sched 16).Inv := ⟨reset_inv, sched_inv⟩

theorem test_meets_PaddingIsRecoverable : 8 * ([0x61, 0x62, 0x63] : List Byte).length < 2 ^ 64 := by decide

theorem test_meets_DigestBytesAreBigEndian : (0 < 8 ∧ 0 < 4) ∧ (7 < 8 ∧ 3 < 4) := by decide

theorem test_meets_HexTextHasSixtyFourDigits : '0' ∈ hexDigest (Vector.replicate 8 0) ∧ 7 < 8 := by decide

/-- Both ends of each range, and on both sides of the places where the shifted bits stop. -/
theorem test_meets_WordFunctionsBitByBit : (0 ≤ 31 ∧ 0 < 32) ∧ (31 ≤ 31 ∧ 31 < 32) ∧ (28 < 29 ∧ 28 < 32) ∧
    (¬ 29 < 29 ∧ 29 < 32) ∧ (21 < 22 ∧ 21 < 32) ∧ (¬ 22 < 22 ∧ 22 < 32) := by decide

/-- After reset the core holds the empty message. -/
theorem reset_holds_nothing : Represents [] State.reset := by
  constructor
  case chainIdle => intro _; rfl
  case chainBusy => intro h; exact absurd rfl h
  all_goals decide

/-- A state that holds 56 zero bytes. -/
theorem holds_fifty_six : Represents (List.replicate 56 0) (holding 56 0) := by
  constructor
  case chainIdle => intro _; rfl
  case chainBusy => intro h; exact absurd rfl h
  all_goals decide

/-- The accept of three bytes, and a core's turn, in a state that holds the empty message. -/
theorem test_meets_StepsAbsorbExactlyTheAcceptedBytes :
    let s := writing 0x00000022 { State.reset with dataIn := 0x61626300 }
    Represents [] s ∧ s.resets = false ∧ s.accepts = some (.update 3) ∧ s.takenBytes = [0x61, 0x62, 0x63] ∧
      ∃ t, step s = .next t := by
  refine ⟨reset_holds_nothing.congr rfl rfl rfl rfl rfl rfl rfl rfl rfl rfl rfl, by decide, by decide, by decide, ⟨_, rfl⟩⟩

/-- One block, and two. -/
theorem test_meets_FinalBuildsTheLastBlocksOfPad :
    (Represents [] State.reset ∧ State.reset.phase = .idle ∧ State.reset.bufcnt.toNat ≤ 55) ∧
    (Represents (List.replicate 56 0) (holding 56 0) ∧ (holding 56 0).phase = .idle ∧
      56 ≤ (holding 56 0).bufcnt.toNat) := ⟨⟨reset_holds_nothing, by decide⟩, holds_fifty_six, by decide⟩

theorem test_meets_FinalDeliversTheDigest :
    (Represents [] State.reset ∧ State.reset.phase = .idle) ∧
    (Represents (List.replicate 56 0) (holding 56 0) ∧ (holding 56 0).phase = .idle) :=
  ⟨⟨reset_holds_nothing, rfl⟩, holds_fifty_six, rfl⟩

/-- With no turn listed a running job runs to its end. -/
theorem runs_to_idle (n : Nat) (a s : State) (h : Runs (fun x => x.resets = false ∧ x.phase ≠ .idle) a s)
    (h16 : s.phase = .sched → 16 ≤ s.t.toNat) (ht : s.turns = []) (hn : microStepsLeft s = n) :
    ∃ u, Runs (fun x => x.resets = false ∧ x.phase ≠ .idle) a u ∧ u.phase = .idle := by
  induction n generalizing s with
  | zero =>
    refine ⟨s, h, ?_⟩
    unfold microStepsLeft at hn
    split at hn
    · assumption
    all_goals omega
  | succ n ih =>
    have hp : s.phase ≠ .idle := by intro e; simp [microStepsLeft, e] at hn
    obtain ⟨t, hst⟩ := coreStep_answers h16
    have hstep : step s = .next t := by rw [step_nil ht, if_pos (by simpa using hp)]; exact hst
    have hleft := microStepsLeft_coreStep hp hst
    exact ih t (h.tail ⟨by unfold State.resets; rw [ht], hp⟩ hstep) (coreStep_schedIndex h16 hst)
      ((coreStep_keeps hst).1.trans ht) (by omega)

/-- INIT, UPDATE 3 of "abc" and FINAL, then the job. -/
theorem test_meets_AnyRunFromInitToFinalGivesTheDigest :
    ∃ s s0 s1 s2 u : State, s.accepts = some .init ∧ step s = .next s0 ∧ Absorbs s0 [0x61, 0x62, 0x63] s1 ∧
      s1.accepts = some .final ∧ step s1 = .next s2 ∧
      Runs (fun x => x.resets = false ∧ x.phase ≠ .idle) s2 u ∧ u.phase = .idle := by
  let s : State := { finished with
    dataIn := 0x61626300
    turns := [.write 0 4 0x00000001, .write 0 4 0x00000022, .write 0 4 0x00000003] }
  let s0 : State := initMessage s.popTurn
  let s1 : State := absorbUpdate 3 s0.popTurn
  let s2 : State := padFinal s1.popTurn
  obtain ⟨u, hu, hp⟩ := runs_to_idle _ s2 s2 (.refl s2) (fun _ => by decide) rfl rfl
  have hab : Absorbs s0 ([] ++ s0.takenBytes) s1 := .tail (.refl s0) (by decide) (by decide) (by decide) rfl
  have bytes : [] ++ s0.takenBytes = [0x61, 0x62, 0x63] := by decide
  rw [bytes] at hab
  exact ⟨s, s0, s1, s2, u, by decide, rfl, hab, by decide, rfl, hu, hp⟩

/-- "abc" sent as one group, and as one byte and two, with turns of both agents listed. -/
theorem test_meets_HashMessageProgramGivesTheDigest :
    ∀ gs ∈ [[[0x61, 0x62, 0x63]], [[0x61], [0x62, 0x63]]],
      let s : State := { finished with
        turns := [.core, .script, .core]
        host := ⟨(hashGroupsStmts 0 gs).getD [], 0, [], []⟩ }
      (∀ g ∈ gs, 1 ≤ g.length ∧ g.length ≤ 4) ∧ 8 * gs.flatten.length < 2 ^ 64 ∧ s.phase = .idle ∧
        (∀ tu ∈ s.turns, tu = .core ∨ tu = .script) ∧ some s.host.script = hashGroupsStmts 0 gs ∧ s.host.pos = 0 := by
  decide

/-- Counts at both ends, a group of one byte and its last zero, two groups of HASHMSG, a program of counts 1 and 4, and
one with a label of its own, with WAIT's label at the place the statement speaks of. -/
theorem test_meets_PseudoInstructionsExpandWithFreshLabels :
    encode (.update 1) = some 0x00000002 ∧ encode (.update 4) = some 0x00000032 ∧
    groups4 [1, 2, 3, 4, 5] = [] ++ [1, 2, 3, 4] :: [[5]] ∧ groupWord [5] = 0x05000000 ∧
    (expandProgram [.command (.update 1), .push 4 0]).isSome = true ∧
    Item.stmt (.label 0) ∈ [Item.stmt (.label 0), .wait] ∧ freshLabel [.stmt (.label 0), .wait] = 1 ∧
    expandProgram [.stmt (.label 0), .wait] = some ([.label 0] ++ .label 1 :: [.rd 8 .status, .bnz 8 0x1 1]) := by
  decide

/-- HASHMSG "abc" by its row (R80), with the words of P1 (95_test_vectors.md) and a WAIT after each command. -/
theorem test_hashmsg_abc :
    Item.expand 0 (.hashMsg [0x61, 0x62, 0x63]) =
      some ([.wr .cmd 0x1] ++ waitStmts 0 ++ [.wr .dataIn 0x61626300, .wr .cmd 0x22] ++ waitStmts 1 ++
        [.wr .cmd 0x3] ++ waitStmts 2 ++ readDigestStmts) := by
  decide

theorem test_meets_InstancesAreIndependent :
    (0 : Fin 2) ≠ 1 ∧ ∃ q, platformStep (0 : Fin 2) (#v[writing 0x00000001 finished, finished]) = .next q :=
  ⟨by decide, ⟨_, rfl⟩⟩

end Sys2Proof.Tests
end

section
/-! The core's turn (00_scope.md R15, R17). -/

namespace Sys2Proof.Machine

/-- While a job runs, a step with no turn listed is the core's, so the host cannot starve it (R17). -/
theorem step_nil_of_busy {s : State} (noTurn : s.turns = []) (running : s.phase ≠ .idle) : step s = coreStep s := by
  rw [step_nil noTurn, if_pos ((busy_iff s).mpr running)]

/-- Settles O26: a listed core turn is served as the core's micro-step (`step_cons`), a running core moves when no turn
is listed, and the idle core has no micro-step (`coreStep_idle`). -/
theorem coreTurnIsOneMicroStep : Obligations.CoreTurnIsOneMicroStep := by
  refine ⟨fun s rest listed => ?_, fun _ noTurn running => step_nil_of_busy noTurn running, fun _ => coreStep_idle⟩
  calc step s = serve .core { s with turns := rest } := step_cons listed
    _ = coreStep { s with turns := rest } := rfl

end Sys2Proof.Machine
end

section
/-! What UPDATE and the micro-steps set, where Laws/State.lean does not say it (R147, R173, R202). -/

namespace Sys2Proof.Machine

/-- The first error's code stays, and a later error leaves no trace (R202). -/
theorem raiseError_errcode (e : ErrCode) (s : State) :
    (raiseError e s).errcode = if s.err then s.errcode else e.code := by rw [raiseError_eq]

theorem ErrCode.code_ne_zero (e : ErrCode) : e.code ≠ 0 := by cases e <;> decide

theorem ErrCode.code_le_three (e : ErrCode) : e.code.toNat ≤ 3 := by cases e <;> decide

/-- UPDATE puts T at 16 exactly when it LOADs (R144, R173). -/
theorem absorbUpdate_t (n : Nat) (s : State) (hn : n ≤ 4) :
    (absorbUpdate n s).t = if 64 ≤ s.bufcnt.toNat + n then 16 else s.t := by
  have := s.bufcnt.isLt
  simp only [absorbUpdate]
  by_cases h : s.bufcnt.toNat + n < 64
  · rw [absorbBytes_open _ _ _ (by simpa using h)]; simp [Nat.not_le.mpr h]
  · rw [absorbBytes_fill _ _ _ (by omega) (by rw [length_updateBytes]; omega) (by rw [length_updateBytes]; omega)]
    simp [Nat.not_lt.mp h]

theorem schedStep_phase (s : State) : (schedStep s).phase = if s.t = 63 then .round else s.phase := by
  unfold schedStep; split <;> rfl

theorem roundStep_phase (s : State) : (roundStep s).phase = if s.t = 63 then .fold else s.phase := by
  unfold roundStep; split <;> rfl

/-- All that FOLD can do: LOAD the pending block, end FINAL's job with DONE, or end an UPDATE's (R147). -/
theorem foldStep_cases (s : State) :
    (s.pend2 = true ∧ foldStep s = load { s with H := foldHash s.H s.work, pend2 := false }) ∨
    (s.pend2 = false ∧ s.fin = true ∧ foldStep s =
      { s with H := foldHash s.H s.work, fin := false, done := true, phase := .idle, t := 0 }) ∨
    (s.pend2 = false ∧ s.fin = false ∧ foldStep s =
      { s with H := foldHash s.H s.work, phase := .idle, t := 0 }) :=
  afterFold_cases { s with H := foldHash s.H s.work }

theorem foldStep_phase (s : State) : (foldStep s).phase = if s.pend2 then .sched else .idle := by
  rcases foldStep_cases s with ⟨hp, e⟩ | ⟨hp, -, e⟩ | ⟨hp, -, e⟩ <;> simp [e, hp]

theorem foldStep_t (s : State) : (foldStep s).t = if s.pend2 then 16 else 0 := by
  rcases foldStep_cases s with ⟨hp, e⟩ | ⟨hp, -, e⟩ | ⟨hp, -, e⟩ <;> simp [e, hp]

@[simp] theorem foldStep_pend2 (s : State) : (foldStep s).pend2 = false := by
  rcases foldStep_cases s with ⟨hp, e⟩ | ⟨hp, -, e⟩ | ⟨hp, -, e⟩ <;> simp [e, hp]

/-- FIN outlives a FOLD only while a second block is pending (R31, R147). -/
@[simp] theorem foldStep_fin (s : State) : (foldStep s).fin = (s.pend2 && s.fin) := by
  rcases foldStep_cases s with ⟨hp, e⟩ | ⟨hp, hf, e⟩ | ⟨hp, hf, e⟩
  · simp [e, hp]
  · simp [e, hp]
  · simp [e, hp, hf]

/-- The FOLD of FINAL's last block sets DONE (R32, R147). -/
@[simp] theorem foldStep_done (s : State) : (foldStep s).done = (s.done || (!s.pend2 && s.fin)) := by
  rcases foldStep_cases s with ⟨hp, e⟩ | ⟨hp, hf, e⟩ | ⟨hp, hf, e⟩
  · simp [e, hp]
  · simp [e, hp, hf]
  · simp [e, hp, hf]

end Sys2Proof.Machine
end

section
/-! The invariants of R39: every operation, and so every step, keeps `State.Inv`. -/

namespace Sys2Proof.Machine

/-- `State.Inv` reads these fields only: H, the datapath, BUF, DATA_IN, the turns and the host have no part in it. -/
theorem State.Inv.congr {s t : State} (h : s.Inv) (hphase : t.phase = s.phase) (ht : t.t = s.t)
    (hpend : t.pend2 = s.pend2) (hfin : t.fin = s.fin) (hdone : t.done = s.done) (hcnt : t.bufcnt = s.bufcnt)
    (hlen : t.len = s.len) (herr : t.err = s.err) (hcode : t.errcode = s.errcode) : t.Inv := by
  obtain ⟨index, pendFin, finBusy, finCount, doneIdle, errIff, errRange, whole, bytes, idleT⟩ := h
  constructor <;> simpa only [hphase, ht, hpend, hfin, hdone, hcnt, hlen, herr, hcode]

theorem setHost_inv {s : State} (h : s.Inv) (hs : HostSide) : (s.setHost hs).Inv :=
  h.congr rfl rfl rfl rfl rfl rfl rfl rfl rfl

theorem popTurn_inv {s : State} (h : s.Inv) : s.popTurn.Inv := h.congr rfl rfl rfl rfl rfl rfl rfl rfl rfl

/-- The reset values satisfy every clause of the invariant (R20). -/
theorem reset_values_inv : State.reset.Inv := by constructor <;> decide

theorem resetCore_inv (s : State) : (resetCore s).Inv := reset_values_inv.congr rfl rfl rfl rfl rfl rfl rfl rfl rfl

/-- An error record keeps ERR = 1 and ERRCODE ≠ 0 together, and touches nothing else (R202). -/
theorem raiseError_inv {s : State} (h : s.Inv) (e : ErrCode) : (raiseError e s).Inv where
  schedIndex := by simpa using h.schedIndex
  pendFin := by simpa using h.pendFin
  finBusy := by simpa using h.finBusy
  finCount := by simpa using h.finCount
  doneIdle := by simpa using h.doneIdle
  errIff := by
    have := e.code_ne_zero
    have := h.errIff
    rw [raiseError_errcode]; cases hs : s.err <;> simp_all
  errRange := by
    rw [raiseError_errcode]; split
    · exact h.errRange
    · exact e.code_le_three
  lenWhole := by simpa using h.lenWhole
  lenBytes := by simpa using h.lenBytes
  idleT := by simpa using h.idleT

/-- INIT clears every counter and flag, so that only PHASE and T are the old ones (R172). -/
theorem initMessage_inv {s : State} (h : s.Inv) : (initMessage s).Inv where
  schedIndex := by simpa using h.schedIndex
  idleT := by simpa using h.idleT
  pendFin := by simp
  finBusy := by simp
  finCount := by simp
  doneIdle := by simp
  errIff := by simp
  errRange := by simp
  lenWhole := by simp
  lenBytes := by simp

/-- In an idle legal state no job of FINAL is under way (R39). -/
theorem State.Inv.fin_of_idle {s : State} (h : s.Inv) (idle : s.phase = .idle) : s.fin = false := by
  by_contra hf
  exact h.finBusy (by simpa using hf) idle

theorem State.Inv.pend2_of_idle {s : State} (h : s.Inv) (idle : s.phase = .idle) : s.pend2 = false := by
  by_contra hp
  exact (h.pendFin (by simpa using hp)).2 idle

/-- While a job runs, DONE is 0 (R39). -/
theorem State.Inv.done_of_running {s : State} (h : s.Inv) (running : s.phase ≠ .idle) : s.done = false := by
  by_contra hd
  exact running (h.doneIdle (by simpa using hd)).1

/-- UPDATE n moves LEN by 8n and BUFCNT by n, so BUFCNT stays LEN's byte count modulo 64 (R27, R105). -/
theorem absorbUpdate_inv {s : State} {n : Nat} (h : s.Inv) (idle : s.phase = .idle) (opened : s.done = false)
    (hn : n ≤ 4) : (absorbUpdate n s).Inv where
  schedIndex := by
    rw [absorbUpdate_phase n s hn, absorbUpdate_t n s hn]; split <;> simp [idle]
  pendFin := by simp [h.pend2_of_idle idle]
  finBusy := by simp [h.fin_of_idle idle]
  finCount := by simp [h.fin_of_idle idle]
  doneIdle := by simp [opened]
  errIff := by simpa using h.errIff
  errRange := by simpa using h.errRange
  lenWhole := by
    have := h.lenWhole
    simp only [absorbUpdate_len, BitVec.toNat_add, BitVec.toNat_ofNat]; omega
  lenBytes := by
    have := h.lenBytes (h.fin_of_idle idle) opened
    have := h.lenWhole
    intro _ _
    simp only [absorbUpdate_bufcnt n s hn, absorbUpdate_len, BitVec.toNat_add, BitVec.toNat_ofNat]; omega
  idleT := by
    rw [absorbUpdate_phase n s hn, absorbUpdate_t n s hn]; split
    · simp
    · exact h.idleT

/-- FINAL starts a job with FIN = 1, BUFCNT = 0 and T = 16 (R106). -/
theorem padFinal_inv {s : State} (h : s.Inv) (opened : s.done = false) : (padFinal s).Inv where
  schedIndex := by simp
  pendFin := by simp
  finBusy := by simp
  finCount := by simp
  doneIdle := by simp [opened]
  errIff := by simpa using h.errIff
  errRange := by simpa using h.errRange
  lenWhole := by simpa using h.lenWhole
  lenBytes := by simp
  idleT := by simp

/-- A command that is accepted keeps the invariant; UPDATE and FINAL are accepted only with DONE = 0 (R170). -/
theorem acceptEffect_inv {s : State} {i : Instr} (h : s.Inv) (idle : s.phase = .idle) (wf : WellFormed i)
    (opened : (∃ n, i = .update n) ∨ i = .final → s.done = false) : (acceptEffect i s).Inv := by
  cases i with
  | nop => exact h
  | init => exact initMessage_inv h
  | update n => exact absorbUpdate_inv h idle (opened (.inl ⟨n, rfl⟩)) (wf_update.mp wf).2
  | final => exact padFinal_inv h (opened (.inr rfl))

/-- A micro-step inside a job moves PHASE and T only, as far as the invariant reads them (R124, R146). -/
theorem State.Inv.inside_job {s t : State} (h : s.Inv) (running : s.phase ≠ .idle) (still : t.phase ≠ .idle)
    (index : t.phase = .sched → 16 ≤ t.t.toNat) (hpend : t.pend2 = s.pend2) (hfin : t.fin = s.fin)
    (hdone : t.done = s.done) (hcnt : t.bufcnt = s.bufcnt) (hlen : t.len = s.len) (herr : t.err = s.err)
    (hcode : t.errcode = s.errcode) : t.Inv where
  schedIndex := index
  pendFin hp := ⟨hfin.trans (h.pendFin (hpend ▸ hp)).1, still⟩
  finBusy _ := still
  finCount hf := hcnt.trans (h.finCount (hfin ▸ hf))
  doneIdle hd := by rw [hdone, h.done_of_running running] at hd; cases hd
  errIff := by rw [herr, hcode]; exact h.errIff
  errRange := hcode ▸ h.errRange
  lenWhole := hlen ▸ h.lenWhole
  lenBytes := by rw [hfin, hdone, hcnt, hlen]; exact h.lenBytes
  idleT idle := absurd idle still

/-- FOLD takes FIN over into DONE, and BUFCNT is already 0 then (R147). -/
theorem foldStep_inv {s : State} (h : s.Inv) (atFold : s.phase = .fold) : (foldStep s).Inv where
  schedIndex := by rw [foldStep_phase, foldStep_t]; split <;> simp
  pendFin := by simp
  finBusy := by rw [foldStep_phase, foldStep_fin]; cases s.pend2 <;> simp
  finCount := by
    intro hf
    simp only [foldStep_fin, Bool.and_eq_true] at hf
    simpa using h.finCount hf.2
  doneIdle := by
    have notDone := h.done_of_running (by simp [atFold])
    intro hd
    simp only [foldStep_done, notDone, Bool.false_or, Bool.and_eq_true, Bool.not_eq_true'] at hd
    obtain ⟨noPend, fin⟩ := hd
    exact ⟨by simp [foldStep_phase, noPend], by simpa using h.finCount fin⟩
  errIff := by simpa using h.errIff
  errRange := by simpa using h.errRange
  lenWhole := by simpa using h.lenWhole
  lenBytes := by
    intro hf hd
    have notDone := h.done_of_running (by simp [atFold])
    have notFin : s.fin = false := by
      cases hp : s.pend2 <;> simp_all
    simpa using h.lenBytes notFin notDone
  idleT := by rw [foldStep_phase, foldStep_t]; split <;> simp

/-- The core's turn keeps the invariant (R29, R39). -/
theorem coreStep_inv {s t : State} (h : s.Inv) (hs : coreStep s = .next t) : t.Inv := by
  have index := coreStep_schedIndex h.schedIndex hs
  rcases coreStep_cases hs with ⟨-, rfl⟩ | ⟨hp, -, rfl⟩ | ⟨hp, rfl⟩ | ⟨hp, rfl⟩
  · exact h
  · refine h.inside_job (by simp [hp]) ?_ index ?_ ?_ ?_ ?_ ?_ ?_ ?_
    · rw [schedStep_phase, hp]; split <;> simp
    all_goals simp
  · refine h.inside_job (by simp [hp]) ?_ index ?_ ?_ ?_ ?_ ?_ ?_ ?_
    · rw [roundStep_phase, hp]; split <;> simp
    all_goals simp
  · exact foldStep_inv h hp

/-- Settles O46: a reset establishes the invariant, and every other effect a step can have keeps it. -/
theorem everyStepKeepsTheInvariants : Obligations.EveryStepKeepsTheInvariants := by
  intro s t h hstep
  have served (hs : HostSide) : (s.popTurn.setHost hs).Inv := setHost_inv (popTurn_inv h) hs
  cases step_effect hstep with
  | core _ _ _ _ _ eff => exact coreStep_inv (popTurn_inv h) eff
  | reset _ _ _ _ _ eff => exact eff ▸ resetCore_inv _
  | refused _ e hs _ _ _ _ _ eff => exact eff ▸ raiseError_inv (served hs) e
  | accepted _ i hs _ _ _ _ _ idle word opened eff =>
    exact eff ▸ acceptEffect_inv (served hs) idle (decode_wf word) opened
  | dataIn _ hs _ _ _ _ _ eff => exact eff ▸ (served hs).congr rfl rfl rfl rfl rfl rfl rfl rfl rfl
  | hostOnly hs _ _ _ _ _ eff => exact eff ▸ served hs

/-- Settles O45: the reset values meet each clause. -/
theorem invariantHoldsAtReset : Obligations.InvariantHoldsAtReset := reset_values_inv

end Sys2Proof.Machine
end

section
/-! Who writes what, over every step (10_state.md): for H, DATA_IN, BUFCNT, BUSY and DONE, what the core's turn and what
an accepted command makes of the field. Every other kind of step keeps it, by the lemmas of Laws/State.lean. -/

namespace Sys2Proof.Machine

@[simp] theorem busy_popTurn (s : State) : s.popTurn.busy = s.busy := rfl

@[simp] theorem busy_setHost (hs : HostSide) (s : State) : (s.setHost hs).busy = s.busy := rfl

@[simp] theorem busy_raiseError (e : ErrCode) (s : State) : (raiseError e s).busy = s.busy := by simp [State.busy]

/-! ### The core's turn -/

/-- FOLD is the micro-step that writes H (R147). -/
theorem coreStep_H {s t : State} (h : coreStep s = .next t) :
    t.H = if s.phase = .fold then foldHash s.H s.work else s.H := by
  rcases coreStep_cases h with ⟨hp, rfl⟩ | ⟨hp, -, rfl⟩ | ⟨hp, rfl⟩ | ⟨hp, rfl⟩ <;> simp [hp]

/-- No micro-step writes DATA_IN or BUFCNT (R35, R27). -/
theorem coreStep_dataIn {s t : State} (h : coreStep s = .next t) : t.dataIn = s.dataIn := by
  rcases coreStep_cases h with ⟨-, rfl⟩ | ⟨-, -, rfl⟩ | ⟨-, rfl⟩ | ⟨-, rfl⟩ <;> simp

theorem coreStep_bufcnt {s t : State} (h : coreStep s = .next t) : t.bufcnt = s.bufcnt := by
  rcases coreStep_cases h with ⟨-, rfl⟩ | ⟨-, -, rfl⟩ | ⟨-, rfl⟩ | ⟨-, rfl⟩ <;> simp

/-- Only a FOLD without a pending block ends a job (R34). -/
theorem coreStep_busy {s t : State} (h : coreStep s = .next t) :
    t.busy = if s.phase = .fold then s.pend2 else s.busy := by
  rcases coreStep_cases h with ⟨hp, rfl⟩ | ⟨hp, -, rfl⟩ | ⟨hp, rfl⟩ | ⟨hp, rfl⟩
  · simp [hp]
  · simp only [State.busy, schedStep_phase, hp]; split <;> simp
  · simp only [State.busy, roundStep_phase, hp]; split <;> simp
  · simp only [State.busy, foldStep_phase, hp]; cases s.pend2 <;> simp

/-- Only the FOLD of FINAL's last block sets DONE (R32). -/
theorem coreStep_done {s t : State} (h : coreStep s = .next t) :
    t.done = if s.phase = .fold ∧ s.pend2 = false ∧ s.fin = true then true else s.done := by
  rcases coreStep_cases h with ⟨hp, rfl⟩ | ⟨hp, -, rfl⟩ | ⟨hp, rfl⟩ | ⟨hp, rfl⟩
  · simp [hp]
  · simp [hp]
  · simp [hp]
  · cases hp2 : s.pend2 <;> cases hf : s.fin <;> simp [hp, hp2, hf]

/-! ### The statements -/

/-- Settles O18: H by the effect of each kind of step, FOLD being the core's one write to it (`coreStep_H`). -/
theorem hashIsWrittenOnlyByInitFoldReset : Obligations.HashIsWrittenOnlyByInitFoldReset := by
  intro s t hstep
  cases step_effect hstep with
  | core moves noReset _ noAccept _ eff =>
    have hH := coreStep_H eff
    simp only [popTurn_H, popTurn_phase, popTurn_work] at hH
    simp only [moves, noReset, noAccept, hH, true_and]; rfl
  | reset _ resets _ _ _ eff => simp [eff, resets, State.reset]
  | refused _ _ _ still noReset _ noAccept _ eff => simp [eff, still, noReset, noAccept]
  | accepted _ i _ still noReset _ accept _ _ _ _ eff =>
    cases i <;> simp [eff, still, noReset, accept, acceptEffect]
  | dataIn _ _ still noReset _ noAccept _ eff => simp [eff, still, noReset, noAccept]
  | hostOnly _ still noReset _ noAccept _ eff => simp [eff, still, noReset, noAccept]

/-- Settles O19: DATA_IN by the effect of each kind of step; a write elsewhere is a command word or is ignored. -/
theorem dataInIsWrittenOnlyByTheHost : Obligations.DataInIsWrittenOnlyByTheHost := by
  intro s t hstep
  cases step_effect hstep with
  | core _ noReset noWrite _ _ eff => simp [coreStep_dataIn eff, noReset, noWrite]
  | reset _ resets _ _ _ eff => simp [eff, resets, State.reset]
  | refused _ _ _ _ noReset write _ _ eff => simp [eff, noReset, write]
  | accepted _ i _ _ noReset write _ _ _ _ _ eff => cases i <;> simp [eff, noReset, write, acceptEffect]
  | dataIn _ _ _ noReset write _ _ eff => simp [eff, noReset, write]
  -- `write` closes DATA_IN's arm of the match.
  | hostOnly _ _ noReset write _ _ eff => simp [eff, noReset]

/-- Settles O20: BUFCNT by the effect of each kind of step; an accepted UPDATE has a count of at most 4, so it fills BUF
at most once (`absorbUpdate_bufcnt`). -/
theorem bufcntCountsAcceptedBytes : Obligations.BufcntCountsAcceptedBytes := by
  intro s t hstep
  cases step_effect hstep with
  | core _ noReset _ noAccept _ eff => simp [coreStep_bufcnt eff, noReset, noAccept]
  | reset _ resets _ _ _ eff => simp [eff, resets, State.reset]
  | refused _ _ _ _ noReset _ noAccept _ eff => simp [eff, noReset, noAccept]
  | accepted _ i _ _ noReset _ accept _ _ word _ eff =>
    cases i with
    | update n =>
      have count : n ≤ 4 := (wf_update.mp (decode_wf word)).2
      simp [eff, noReset, accept, acceptEffect, absorbUpdate_bufcnt n _ count]
    | _ => simp [eff, noReset, accept, acceptEffect]
  | dataIn _ _ _ noReset _ noAccept _ eff => simp [eff, noReset, noAccept]
  | hostOnly _ _ noReset _ noAccept _ eff => simp [eff, noReset, noAccept]

/-- Settles O21: BUSY by the effect of each kind of step; UPDATE starts a job exactly when BUF fills
(`absorbUpdate_phase`), and a FOLD leaves BUSY at PEND2 (`coreStep_busy`). -/
theorem busyIsSetByJobsAndClearedByTheLastFold : Obligations.BusyIsSetByJobsAndClearedByTheLastFold := by
  intro s t hstep
  cases step_effect hstep with
  | core moves noReset _ noAccept _ eff => simp [coreStep_busy eff, moves, noReset, noAccept]
  | reset _ resets _ _ _ eff => simp [eff, resets, State.busy, State.reset]
  | refused _ _ _ still noReset _ noAccept _ eff => simp [eff, still, noReset, noAccept]
  | accepted _ i _ still noReset _ accept _ idle word _ eff =>
    cases i with
    | update n =>
      have count : n ≤ 4 := (wf_update.mp (decode_wf word)).2
      simp [eff, still, noReset, accept, acceptEffect, State.busy, absorbUpdate_phase n _ count, idle]
    | _ => simp [eff, still, noReset, accept, acceptEffect, State.busy]
  | dataIn _ _ still noReset _ noAccept _ eff => simp [eff, still, noReset, noAccept, State.busy]
  | hostOnly _ still noReset _ noAccept _ eff => simp [eff, still, noReset, noAccept]

/-- Settles O22: DONE by the effect of each kind of step, the core setting it at one FOLD only (`coreStep_done`). -/
theorem doneIsSetOnlyByTheLastFold : Obligations.DoneIsSetOnlyByTheLastFold := by
  intro s t hstep
  cases step_effect hstep with
  | core moves noReset _ noAccept _ eff => simp [coreStep_done eff, moves, noReset, noAccept]
  | reset _ resets _ _ _ eff => simp [eff, resets, State.reset]
  | refused _ _ _ still noReset _ noAccept _ eff => simp [eff, still, noReset, noAccept]
  | accepted _ i _ still noReset _ accept _ _ _ _ eff =>
    cases i <;> simp [eff, still, noReset, accept, acceptEffect]
  | dataIn _ _ still noReset _ noAccept _ eff => simp [eff, still, noReset, noAccept]
  | hostOnly _ still noReset _ noAccept _ eff => simp [eff, still, noReset, noAccept]

end Sys2Proof.Machine
end

section
/-! What the host sees (R37, R40), and INIT against reset (R172, R20). -/

namespace Sys2Proof.Machine

@[simp] theorem getLsbD_bitWord (b : Bool) (i : Nat) : (bitWord b).getLsbD i = (decide (i = 0) && b) := by
  cases b <;> simp [bitWord]

/-- STATUS bit by bit: BUFCNT from bit 8 on, ERRCODE from bit 4 on, ERR, DONE and BUSY in bits 2, 1 and 0 (R37). -/
theorem getLsbD_status (s : State) (i : Nat) (h : i < 32) :
    s.status.getLsbD i =
      ((decide (8 ≤ i) && s.bufcnt.getLsbD (i - 8)) || (decide (4 ≤ i) && s.errcode.getLsbD (i - 4)) ||
        (decide (i = 2) && s.err) || (decide (i = 1) && s.done) || (decide (i = 0) && s.busy)) := by
  simp only [State.status, BitVec.getLsbD_or, BitVec.getLsbD_shiftLeft, BitVec.truncate_eq_setWidth,
    BitVec.getLsbD_setWidth, getLsbD_bitWord]
  have flagAt (k : Nat) : (!decide (i < k) && decide (i - k = 0)) = decide (i = k) := by
    rw [← decide_not, ← Bool.decide_and, decide_eq_decide]; omega
  have field (k : Nat) : (!decide (i < k) && decide (i - k < 32)) = decide (k ≤ i) := by
    rw [← decide_not, ← Bool.decide_and, decide_eq_decide]; omega
  simp only [h, decide_true, Bool.true_and, ← Bool.and_assoc, flagAt, field]

/-- Settles O30: each field and each reserved bit is read off `getLsbD_status`, a field's other sources being 0 there. -/
theorem statusFieldsAreWhereTheyBelong : Obligations.StatusFieldsAreWhereTheyBelong := by
  refine ⟨fun s => ⟨?busy, ?done, ?err, ?bit3, ?errcode, ?bit7, ?bufcnt, ?high⟩, fun _ _ => rfl, by decide⟩
  case busy => rw [getLsbD_status s 0 (by omega)]; simp [State.busy]
  case done => rw [getLsbD_status s 1 (by omega)]; simp
  case err => rw [getLsbD_status s 2 (by omega)]; simp
  case bit3 => rw [getLsbD_status s 3 (by omega)]; simp
  case errcode =>
    ext i hi
    have elsewhere : ¬ 8 ≤ 4 + i ∧ 4 + i ≠ 2 ∧ 4 + i ≠ 1 := by omega
    rw [BitVec.getElem_extractLsb', getLsbD_status s _ (by omega)]
    simp [elsewhere, BitVec.getLsbD_eq_getElem hi]
  case bit7 => rw [getLsbD_status s 7 (by omega)]; simp
  case bufcnt =>
    ext i hi
    have elsewhere : s.errcode.getLsbD (8 + i - 4) = false ∧ 8 + i ≠ 2 ∧ 8 + i ≠ 1 :=
      ⟨BitVec.getLsbD_of_ge _ _ (by omega), by omega, by omega⟩
    rw [BitVec.getElem_extractLsb', getLsbD_status s _ (by omega)]
    simp [elsewhere, BitVec.getLsbD_eq_getElem hi]
  case high =>
    ext i hi
    have elsewhere : s.bufcnt.getLsbD (14 + i - 8) = false ∧ s.errcode.getLsbD (14 + i - 4) = false ∧
        14 + i ≠ 2 ∧ 14 + i ≠ 1 :=
      ⟨BitVec.getLsbD_of_ge _ _ (by omega), BitVec.getLsbD_of_ge _ _ (by omega), by omega, by omega⟩
    rw [BitVec.getElem_extractLsb', getLsbD_status s _ (by omega)]
    simp [elsewhere]

/-- Settles O31: every register that has an offset reads a visible field only, STATUS being built from BUFCNT, ERRCODE,
ERR, DONE and BUSY (R37). -/
theorem readsDependOnTheVisibleStateOnly : Obligations.ReadsDependOnTheVisibleStateOnly := by
  intro s s' off hH hlen hdata hbusy hdone herr hcode hcnt
  have readAlike (r : Reg) : readReg s r = readReg s' r := by
    cases r with
    | cmd => rfl
    | status => simp only [readReg, State.status, hbusy, hdone, herr, hcode, hcnt]
    | dataIn => exact hdata
    | lenLo => simp only [readReg, State.lenLo, hlen]
    | lenHi => simp only [readReg, State.lenHi, hlen]
    | digest i => simp only [readReg, hH]
  unfold memRead
  cases Reg.atOffset off with
  | none => rfl
  | some r => exact readAlike r

/-- INIT writes reset's value to all but PHASE and T, which an idle legal state already has at theirs (R172, R39). -/
theorem initMessage_of_idle_inv {s : State} (h : s.Inv) (idle : s.phase = .idle) :
    initMessage s = { State.reset with
      dataIn := s.dataIn, buf := s.buf, W := s.W, work := s.work,
      window := s.window, turns := s.turns, host := s.host } := by
  have tZero := h.idleT idle
  simp only [initMessage, clearError, State.reset, idle, tZero]

/-- Settles O34: the idle core accepts INIT, and the invariant gives T = 0, the one value INIT neither sets nor keeps
(`initMessage_of_idle_inv`). -/
theorem initGivesTheResetState : Obligations.InitGivesTheResetState := by
  intro s h idle
  calc exec .init s = .next (checked false initMessage s) := rfl
    _ = .next (initMessage s) := by rw [checked_of_idle idle _ _ (.inl rfl)]
    _ = _ := by rw [initMessage_of_idle_inv h idle]

end Sys2Proof.Machine
end

section
/-! The window's accesses (R50 to R54) and the independence of several cores (R66, R213). -/

namespace Sys2Proof.Machine

/-! ### Reads -/

/-- No register stands between LEN_HI and DIGEST0, nor above DIGEST7 (R51). -/
theorem atOffset_reserved {off : Nat} (h : (0x14 ≤ off ∧ off ≤ 0x1C) ∨ 0x40 ≤ off) : Reg.atOffset off = none := by
  unfold Reg.atOffset
  rw [if_neg (by omega), if_neg (by omega), if_neg (by omega), if_neg (by omega), if_neg (by omega), dif_neg (by omega)]

/-- Which turns are still to be taken has no part in what an offset reads (`readsDependOnTheVisibleStateOnly`). -/
theorem memRead_turns (s : State) (off : Nat) (rest : List Turn) : memRead { s with turns := rest } off = memRead s off :=
  readsDependOnTheVisibleStateOnly _ _ off rfl rfl rfl rfl rfl rfl rfl rfl

/-- A listed aligned read notes the value for the host, and that is all it does (R53). -/
theorem step_read {s : State} {off : Nat} {rest : List Turn} (inside : off < 256) (aligned : off % 4 = 0)
    (listed : s.turns = .read (s.base + off) 4 :: rest) :
    step s = .next (observe (memRead s off) { s with turns := rest }) := by
  let s' : State := { s with turns := rest }
  calc step s = hostRead (s'.base + off) 4 s' := step_cons listed
    _ = .next (observe (memRead s' off) s') := atWindow_aligned inside aligned _
    _ = .next (observe (memRead s off) s') := by rw [memRead_turns]

/-- Settles O27: a named register is read at its offset (`memRead_offset`), a reserved offset holds none
(`atOffset_reserved`), and a listed read only adds to what the host has read (`step_read`). -/
theorem windowReadsTheRegisters : Obligations.WindowReadsTheRegisters := by
  refine ⟨fun s => ⟨memRead_offset s .cmd, memRead_offset s .status, memRead_offset s .dataIn, memRead_offset s .lenLo,
    memRead_offset s .lenHi, fun i => memRead_offset s (.digest i), fun off _ range => ?reserved⟩,
    fun _ _ _ inside aligned listed => step_read inside aligned listed⟩
  case reserved =>
    have noReg : Reg.atOffset off = none := atOffset_reserved (by omega)
    unfold memRead; rw [noReg]

/-! ### Writes -/

/-- Away from CMD, a write stores its word at DATA_IN or is ignored (R54). -/
theorem memWrite_of_ne_cmd {off : Nat} (notCmd : off ≠ 0) (v : Word) (s : State) :
    memWrite off v s = .next { s with dataIn := if off = 0x08 then v else s.dataIn } := by
  obtain ⟨t, ht⟩ := memWrite_answers off v s
  rw [ht]
  rcases memWrite_cases ht with ⟨atCmd, -⟩ | ⟨rfl, rfl⟩ | ⟨-, notData, rfl⟩
  · exact absurd atCmd notCmd
  · rfl
  · rw [if_neg notData]

/-- Settles O28: the listed write reaches its offset (`atWindow_aligned`), which is not CMD's (`memWrite_of_ne_cmd`). -/
theorem writesElsewhereAreIgnored : Obligations.WritesElsewhereAreIgnored := by
  intro s off v rest inside aligned notCmd listed
  let s' : State := { s with turns := rest }
  calc step s = hostWrite (s'.base + off) 4 v s' := step_cons listed
    _ = memWrite off v s' := atWindow_aligned inside aligned _
    _ = _ := memWrite_of_ne_cmd notCmd v s'

/-! ### Accesses that have no step -/

/-- An access inside the window goes nowhere with another width or a misaligned address, whatever it was to do (R52). -/
theorem atWindow_refused {addr size : Nat} {s : State} (low : s.base ≤ addr) (high : addr < s.base + 256)
    (unfit : size ≠ 4 ∨ (addr - s.base) % 4 ≠ 0) (go : Nat → Host.Outcome State Fault Refusal) :
    atWindow addr size s go = .refused (if size = 4 then .accessMisaligned else .accessWidth) := by
  unfold atWindow
  rw [if_neg (by omega)]
  by_cases width : size = 4
  · have misaligned : (addr - s.base) % 4 ≠ 0 := unfit.resolve_left (not_not_intro width)
    rw [if_neg (not_not_intro width), if_pos misaligned, if_pos width]
  · rw [if_pos width, if_neg width]

/-- Settles O29: a read and a write alike stop at the window's check (`atWindow_refused`). -/
theorem otherAccessesHaveNoStep : Obligations.OtherAccessesHaveNoStep := by
  intro s addr size v rest tu low high unfit access listed
  have refused := atWindow_refused (s := { s with turns := rest }) low high unfit
  rw [step_cons listed]
  rcases access with rfl | rfl
  · exact refused fun off => .next (observe (memRead _ off) _)
  · exact refused fun off => memWrite off v _

/-! ### Several cores -/

/-- A step of the platform is one core's step, put back in its place (R66). -/
theorem platformStep_next {n : Nat} {i : Fin n} {p q : Platform n} (h : platformStep i p = .next q) :
    ∃ s, step p[i.val] = .next s ∧ q = p.set i.val s := by
  unfold platformStep at h
  split at h
  · cases h; exact ⟨_, ‹_›, rfl⟩
  · cases h
  · cases h

/-- Settles O60: the step writes only the place of the core that takes it (`platformStep_next`). -/
theorem instancesAreIndependent : Obligations.InstancesAreIndependent := by
  intro n i j p q h other
  obtain ⟨s, -, rfl⟩ := platformStep_next h
  exact Vector.getElem_set_ne i.isLt j.isLt (Fin.val_ne_of_ne other)

end Sys2Proof.Machine
end

section
/-! The encoding table (30_encoding.md R70 to R78): a word decodes to a command exactly when it matches the command's row and carries its count, and encoder and decoder invert each other. -/

namespace Sys2Proof

/-! ### The decoder and the rows (R73, R76) -/

/-- NOP, INIT and FINAL have a row whose mask is the whole word, so one word matches it. -/
theorem covers_full_iff {r : Row} (h : r.mask = 0xFFFFFFFF#32) (w : Word) : r.covers w = true ↔ w = r.pattern := by
  rw [covers_iff, h, show 0xFFFFFFFF#32 = BitVec.allOnes 32 from rfl, BitVec.and_allOnes]

/-- A word that matches a command's row, and whose count is the command's, decodes to the command. -/
theorem decode_of_covers {w : Word} {i : Instr} (h : i.row.covers w = true)
    (count : ∀ n, i = .update n → n = byteCount w) : decode w = .legal i := by
  cases i with
  | nop => obtain rfl := (covers_full_iff rfl w).mp h; rfl
  | init => obtain rfl := (covers_full_iff rfl w).mp h; rfl
  | final => obtain rfl := (covers_full_iff rfl w).mp h; rfl
  | update n =>
    obtain rfl := count n rfl
    have masked : w &&& 0xFFFFFFCF#32 = 0x00000002#32 := (covers_iff _ _).mp h
    have notNop : w ≠ 0x00000000#32 := by rintro rfl; exact absurd masked (by decide)
    have notInit : w ≠ 0x00000001#32 := by rintro rfl; exact absurd masked (by decide)
    unfold decode
    rw [if_neg notNop, if_neg notInit, if_pos masked]

/-- A word that decodes to a command matches the command's row, and its count is the command's. -/
theorem covers_of_decode {w : Word} {i : Instr} (h : decode w = .legal i) :
    i.row.covers w = true ∧ ∀ n, i = .update n → n = byteCount w := by
  unfold decode at h
  split at h
  case isTrue isNop => cases h; exact ⟨(covers_full_iff rfl w).mpr isNop, nofun⟩
  split at h
  case isTrue isInit => cases h; exact ⟨(covers_full_iff rfl w).mpr isInit, nofun⟩
  split at h
  case isTrue masked => cases h; exact ⟨(covers_iff _ w).mpr masked, by rintro n ⟨⟩; rfl⟩
  split at h
  case isTrue isFinal => cases h; exact ⟨(covers_full_iff rfl w).mpr isFinal, nofun⟩
  case isFalse => cases h

theorem decode_eq_legal_iff {w : Word} {i : Instr} :
    decode w = .legal i ↔ i.row.covers w = true ∧ ∀ n, i = .update n → n = byteCount w :=
  ⟨covers_of_decode, fun ⟨covers, count⟩ => decode_of_covers covers count⟩

theorem row_mem_opcodeRows (i : Instr) : i.row ∈ opcodeRows := by
  cases i <;> simp [opcodeRows, Instr.row]

/-- The rows are those of the four commands, so a word that matches one decodes. -/
theorem exists_decode_iff (w : Word) : (∃ i, decode w = .legal i) ↔ ∃ r ∈ opcodeRows, r.covers w = true := by
  constructor
  · rintro ⟨i, h⟩
    exact ⟨i.row, row_mem_opcodeRows i, (covers_of_decode h).1⟩
  · rintro ⟨r, hr, covers⟩
    simp only [opcodeRows, List.mem_cons, List.not_mem_nil, or_false] at hr
    rcases hr with rfl | rfl | rfl | rfl
    · exact ⟨.nop, decode_of_covers covers nofun⟩
    · exact ⟨.init, decode_of_covers covers nofun⟩
    · exact ⟨.update (byteCount w), decode_of_covers covers (by rintro n ⟨⟩; rfl)⟩
    · exact ⟨.final, decode_of_covers covers nofun⟩

/-- Every row's mask holds OP whole, and its pattern is OP alone, so a word's OP is the pattern of the row it matches. -/
theorem op_of_covers {r : Row} {w : Word} (hr : r ∈ opcodeRows) (covers : r.covers w = true) :
    w &&& 0xF#32 = r.pattern := by
  have rows : ∀ r ∈ opcodeRows, r.mask &&& 0xF#32 = 0xF#32 ∧ r.pattern &&& 0xF#32 = r.pattern := by decide
  obtain ⟨maskOp, patternOp⟩ := rows r hr
  calc w &&& 0xF#32 = w &&& r.mask &&& 0xF#32 := by rw [BitVec.and_assoc, maskOp]
    _ = r.pattern &&& 0xF#32 := by rw [(covers_iff r w).mp covers]
    _ = r.pattern := patternOp

/-- Settles O3: a word decodes exactly by its row (`decode_eq_legal_iff`), and two rows that match it have its OP for
their pattern (`op_of_covers`), which tells the rows apart. -/
theorem commandsAreTheRowsOfTheTable : Obligations.CommandsAreTheRowsOfTheTable := by
  refine ⟨exists_decode_iff, fun _ _ => decode_eq_legal_iff, fun w r r' hr hr' covers covers' => ?disjoint⟩
  have patternsDiffer : ∀ r ∈ opcodeRows, ∀ r' ∈ opcodeRows, r.pattern = r'.pattern → r = r' := by decide
  exact patternsDiffer r hr r' hr' ((op_of_covers hr covers).symm.trans (op_of_covers hr' covers'))

/-! ### The encoder (R73, R78) -/

/-- The word of a command decodes to it; UPDATE's count is one of four (R72). -/
theorem decode_of_encode {w : Word} {i : Instr} (h : encode i = some w) : decode w = .legal i := by
  have wf := wf_of_encode h
  cases i with
  | nop => cases h; rfl
  | init => cases h; rfl
  | final => cases h; rfl
  | update n =>
    rw [encode_update_wf wf] at h
    cases h
    have range := wf_update.mp wf
    obtain rfl | rfl | rfl | rfl : n = 1 ∨ n = 2 ∨ n = 3 ∨ n = 4 := by omega
    all_goals rfl

theorem exists_encode_of_wf {i : Instr} (wf : WellFormed i) : ∃ w, encode i = some w := by
  cases i with
  | update n => exact ⟨_, encode_update_wf wf⟩
  | _ => exact ⟨_, rfl⟩

/-- Settles O1: a well-formed command has a word, and that word decodes to it (`decode_of_encode`). -/
theorem decodeInvertsEncode : Obligations.DecodeInvertsEncode := by
  intro i wf
  obtain ⟨w, h⟩ := exists_encode_of_wf wf
  exact ⟨w, h, decode_of_encode h⟩

/-- What UPDATE's mask leaves out of a word is NB in its place (R70, R73). -/
theorem masked_or_nbField (w : Word) : w &&& 0xFFFFFFCF#32 ||| (nbField w).setWidth 32 <<< 4 = w := by
  have maskBit : ∀ j < 32, (0xFFFFFFCF#32).getLsbD j = !(decide (4 ≤ j) && decide (j < 6)) := by decide
  apply BitVec.eq_of_getLsbD_eq
  intro j hj
  simp only [nbField, BitVec.getLsbD_or, BitVec.getLsbD_and, maskBit j hj, BitVec.getLsbD_shiftLeft,
    BitVec.getLsbD_setWidth, BitVec.getLsbD_extractLsb']
  by_cases low : j < 4
  · simp [low]
  · have above : 4 ≤ j ∧ 4 + (j - 4) = j ∧ j - 4 < 32 ∧ (j - 4 < 2 ↔ j < 6) := by omega
    by_cases high : j < 6
    · simp [hj, low, above, high]
    · simp [low, above, high]

/-- A word that matches UPDATE's row is the encoder's word for its own count. -/
theorem encode_update_byteCount {w : Word} (masked : w &&& 0xFFFFFFCF#32 = 0x00000002#32)
    (wf : WellFormed (.update (byteCount w))) : encode (.update (byteCount w)) = some w := by
  have nb : BitVec.ofNat 32 (byteCount w - 1) = (nbField w).setWidth 32 := by
    rw [byteCount, Nat.add_sub_cancel, BitVec.ofNat_toNat]
  rw [encode_update_wf wf, nb, ← masked, masked_or_nbField]

/-- Settles O2: the word matches the command's row (`covers_of_decode`), which is one word, or for UPDATE leaves NB free,
and NB is the count (`encode_update_byteCount`). -/
theorem encodeInvertsDecode : Obligations.EncodeInvertsDecode := by
  intro w i h
  have wf := decode_wf h
  obtain ⟨covers, count⟩ := covers_of_decode h
  refine ⟨wf, ?_⟩
  cases i with
  | nop => rw [(covers_full_iff rfl w).mp covers]; rfl
  | init => rw [(covers_full_iff rfl w).mp covers]; rfl
  | final => rw [(covers_full_iff rfl w).mp covers]; rfl
  | update n =>
    obtain rfl := count n rfl
    exact encode_update_byteCount ((covers_iff _ w).mp covers) wf

/-- Settles O5: the legal words are the encoder's (`decode_of_encode`); the illegal ones match no row, one for its NB, one
for its RSV. -/
theorem writtenWordsDecode : Obligations.WrittenWordsDecode :=
  ⟨decode_of_encode rfl, decode_of_encode rfl, decode_of_encode rfl, decode_of_encode rfl, decode_of_encode rfl, rfl, rfl⟩

end Sys2Proof
end

section
/-! The statements of a host program (R79). -/

namespace Sys2Proof.Machine

@[simp] theorem HostSide.var_setVar_self (x : Nat) (v : Word) (hs : HostSide) : (hs.setVar x v).var x = v := by
  simp [HostSide.var, HostSide.setVar]

/-- Setting a variable leaves every other one. -/
theorem HostSide.var_setVar_of_ne {x y : Nat} (h : y ≠ x) (v : Word) (hs : HostSide) :
    (hs.setVar x v).var y = hs.var y := by
  have found : (hs.setVar x v).vars.find? (fun p => p.1 == y) = hs.vars.find? (fun p => p.1 == y) := by
    rw [HostSide.setVar, List.find?_cons_of_neg (by simpa using h.symm), List.find?_filter]
    congr 1
    funext p
    have other : p.1 = y → p.1 ≠ x := fun atY atX => h (atY.symm.trans atX)
    rw [Bool.eq_iff_iff]
    simpa using other
  rw [HostSide.var, HostSide.var, found]

/-- The host's turn is the statement it stands at (R79). -/
theorem scriptStep_eq_runStmt {s : State} {st : Stmt} (h : s.host.script[s.host.pos]? = some st) :
    scriptStep s = runStmt st s := by
  simp only [scriptStep, h]

theorem memWrite_offset (r : Reg) (v : Word) (s : State) : memWrite r.offset v s = writeReg r v s := by
  unfold memWrite; rw [atOffset_offset]

/-- Settles O32: each statement by its equation, BNZ's by what `labelPos` answers, and RD's variable by `var_setVar_self`
and `var_setVar_of_ne`. -/
theorem hostStatementsDoWhatTheySay : Obligations.HostStatementsDoWhatTheySay := by
  intro s
  refine ⟨fun r v h => ?wr, fun x r h => ?rd, fun x m l p h found => ?taken, fun x m l h missing => ?missing,
    fun l h => scriptStep_label h, scriptStep_eq_runStmt⟩
  case wr => rw [scriptStep_wr h, memWrite_offset]; rfl
  case rd =>
    rw [scriptStep_rd h, memRead_offset]
    exact ⟨_, rfl, rfl, rfl, HostSide.var_setVar_self x _ s.host, fun y ne => HostSide.var_setVar_of_ne ne _ s.host, rfl⟩
  case taken =>
    rw [scriptStep_eq_runStmt h, runStmt, found]
    split <;> rfl
  case missing => rw [scriptStep_eq_runStmt h, runStmt, missing]; rfl

end Sys2Proof.Machine
end

section
/-! The expansion of host programs (R78, R80): groups of a message, programs that expand, and fresh labels. -/

namespace Sys2Proof.Machine

/-! ### The groups of a message (R80) -/

/-- A non-empty message's first group is its first 4 bytes, or all of it. -/
theorem groups4_of_ne_nil {m : List Byte} (h : m ≠ []) : groups4 m = m.take 4 :: groups4 (m.drop 4) := by
  match m with
  | [a] | [a, b] | [a, b, c] => rfl
  | a :: b :: c :: d :: rest => rfl

theorem groups4_eq_nil {m : List Byte} : groups4 m = [] ↔ m = [] := by
  constructor
  · intro h
    by_contra ne
    rw [groups4_of_ne_nil ne] at h
    cases h
  · rintro rfl; rfl

theorem flatten_groups4 (m : List Byte) : (groups4 m).flatten = m := by
  by_cases h : m = []
  · rw [h]; rfl
  · have := List.length_pos_iff.mpr h
    rw [groups4_of_ne_nil h, List.flatten_cons, flatten_groups4 (m.drop 4), List.take_append_drop]
termination_by m.length
decreasing_by rw [List.length_drop]; omega

/-- Every group has 1 to 4 bytes, and 4 when another group comes after it. -/
theorem groups4_lengths {m g : List Byte} {pre post : List (List Byte)} (h : groups4 m = pre ++ g :: post) :
    1 ≤ g.length ∧ g.length ≤ 4 ∧ (post ≠ [] → g.length = 4) := by
  induction pre generalizing m with
  | nil =>
    have ne : m ≠ [] := by rintro rfl; cases h
    rw [groups4_of_ne_nil ne] at h
    obtain ⟨rfl, rfl⟩ := List.cons.inj h
    have pos := List.length_pos_iff.mpr ne
    rw [ne_eq, groups4_eq_nil, List.drop_eq_nil_iff, List.length_take]
    omega
  | cons x pre ih =>
    have ne : m ≠ [] := by rintro rfl; cases h
    rw [groups4_of_ne_nil ne] at h
    exact ih (List.cons.inj h).2

theorem length_of_mem_groups4 {m g : List Byte} (h : g ∈ groups4 m) : 1 ≤ g.length ∧ g.length ≤ 4 := by
  obtain ⟨pre, post, split⟩ := List.append_of_mem h
  obtain ⟨low, high, -⟩ := groups4_lengths split
  exact ⟨low, high⟩

/-- Byte `k` of a group's word, the first on top; past the group's end it is zero (R12, R80). -/
theorem extractLsb'_groupWord (g : List Byte) {k : Nat} (hk : k < 4) :
    (groupWord g).extractLsb' (8 * (3 - k)) 8 = g.getD k 0 := by
  rw [groupWord, be32_append]
  apply BitVec.eq_of_getLsbD_eq
  intro i hi
  obtain rfl | rfl | rfl | rfl : k = 0 ∨ k = 1 ∨ k = 2 ∨ k = 3 := by omega
  all_goals
    simp only [BitVec.getLsbD_extractLsb', BitVec.getLsbD_append, hi]
    interval_cases i <;> simp

theorem getElem?_append_zeros {g : List Byte} {k : Nat} (hg : g.length ≤ 4) (hk : k < 4) :
    (g ++ List.replicate (4 - g.length) 0)[k]? = some (g.getD k 0) := by
  by_cases h : k < g.length
  · simp [List.getElem?_append_left h, h]
  · rw [List.getElem?_append_right (by omega), List.getElem?_replicate, if_pos (by omega),
      List.getD_eq_default _ _ (by omega)]

/-! ### Programs that expand (R78, R80) -/

/-- The statements of one group of HASHMSG, with its WAIT's label: PUSH and WAIT (R80). -/
def groupStmts (g : List Byte × Nat) : List Stmt :=
  [.wr .dataIn (groupWord g.1), .wr .cmd (0x00000002 ||| (BitVec.ofNat 32 (g.1.length - 1) <<< 4))] ++ waitStmts g.2

/-- The statements of HASHMSG's row for the groups `gs`, with labels from `l` on (R80). -/
def hashStmts (l : Nat) (gs : List (List Byte)) : List Stmt :=
  [.wr .cmd 0x00000001] ++ waitStmts l ++ (gs.zipIdx (l + 1)).flatMap groupStmts ++
    [.wr .cmd 0x00000003] ++ waitStmts (l + 1 + gs.length) ++ readDigestStmts

/-- A message sent in any groups of 1 to 4 bytes is the statements of HASHMSG's row. -/
theorem hashGroupsStmts_of_lengths (l : Nat) {gs : List (List Byte)} (h : ∀ g ∈ gs, 1 ≤ g.length ∧ g.length ≤ 4) :
    hashGroupsStmts l gs = some (hashStmts l gs) := by
  have start : command .init = some (.wr .cmd 0x00000001) := rfl
  have pushes : pushGroups (l + 1) gs = some ((gs.zipIdx (l + 1)).flatMap groupStmts) :=
    pushGroups_of_lengths (l + 1) gs h
  have finish : command .final = some (.wr .cmd 0x00000003) := rfl
  rw [hashGroupsStmts, start, pushes, finish]; rfl

theorem expand_hashMsg (l : Nat) (m : List Byte) : Item.expand l (.hashMsg m) = some (hashStmts l (groups4 m)) :=
  hashGroupsStmts_of_lengths l fun _ => length_of_mem_groups4

theorem expand_command {i : Instr} {w : Word} (h : encode i = some w) (l : Nat) :
    Item.expand l (.command i) = some [.wr .cmd w] := by
  simp [Item.expand, command_of_encode h]

theorem expand_push {n : Nat} {w : Word} (h : encode (.update n) = some w) (l : Nat) (v : Word) :
    Item.expand l (.push n v) = some [.wr .dataIn v, .wr .cmd w] := by
  simp [Item.expand, pushStmts, command_of_encode h]

/-- An item expands, wherever its labels begin, unless its count is outside 1 to 4. -/
theorem exists_expand {it : Item} (update : ∀ n, it = .command (.update n) → 1 ≤ n ∧ n ≤ 4)
    (push : ∀ n v, it = .push n v → 1 ≤ n ∧ n ≤ 4) (l : Nat) : ∃ sts, it.expand l = some sts := by
  cases it with
  | command i =>
    have wf : WellFormed i := by
      cases i with
      | update n => exact wf_update.mpr (update n rfl)
      | _ => rfl
    obtain ⟨w, hw⟩ := exists_encode_of_wf wf
    exact ⟨_, expand_command hw l⟩
  | push n v => exact ⟨_, pushStmts_of_count (push n v rfl) v⟩
  | hashMsg m => exact ⟨_, expand_hashMsg l m⟩
  | _ => exact ⟨_, rfl⟩

/-- A program expands when each of its items does, wherever their labels begin. -/
theorem exists_expandFrom {p : List Item} (h : ∀ it ∈ p, ∀ l, ∃ sts, it.expand l = some sts) (l : Nat) :
    ∃ sts, expandFrom l p = some sts := by
  induction p generalizing l with
  | nil => exact ⟨_, rfl⟩
  | cons it p ih =>
    obtain ⟨a, ha⟩ := h it List.mem_cons_self l
    obtain ⟨b, hb⟩ := ih (fun x hx => h x (List.mem_cons_of_mem _ hx)) (l + it.labels)
    exact ⟨_, expandFrom_cons.mpr ⟨a, b, ha, hb, rfl⟩⟩

/-- A program that expands is its items' expansions in order, their labels numbered upward. -/
theorem expandFrom_parts {l : Nat} {p : List Item} {sts : List Stmt} (h : expandFrom l p = some sts) :
    ∃ parts : List (List Stmt), sts = parts.flatten ∧
      List.Forall₂ (fun it part => ∃ k, l ≤ k ∧ Item.expand k it = some part) p parts := by
  induction p generalizing l sts with
  | nil => cases h; exact ⟨[], rfl, .nil⟩
  | cons it p ih =>
    obtain ⟨a, b, ha, hb, rfl⟩ := expandFrom_cons.mp h
    obtain ⟨parts, rfl, each⟩ := ih hb
    exact ⟨a :: parts, rfl, .cons ⟨l, le_rfl, ha⟩
      (each.imp fun _ _ ⟨k, hk, hx⟩ => ⟨k, (Nat.le_add_right _ _).trans hk, hx⟩)⟩

/-- A program that holds an item without expansion has none. -/
theorem expandFrom_eq_none {it : Item} {p : List Item} (h : it ∈ p) (noExpansion : ∀ l, it.expand l = none) (l : Nat) :
    expandFrom l p = none := by
  induction p generalizing l with
  | nil => cases h
  | cons x p ih =>
    rw [expandFrom]
    rcases List.mem_cons.mp h with rfl | h
    · rw [noExpansion]; rfl
    · rw [ih h]; cases x.expand l <;> rfl

/-- Settles O16: the count is not well formed, so `encode` has no word, `decode_wf` excludes it, and the items that need
the word have no expansion. -/
theorem countOutsideOneToFourIsNoCommand : Obligations.CountOutsideOneToFourIsNoCommand := by
  intro n s outside
  have notWf : ¬ WellFormed (.update n) := by rw [wf_update]; omega
  have noWord : encode (.update n) = none := encode_update_not_wf notWf
  have noStmt : command (.update n) = none := by rw [command, noWord]; rfl
  refine ⟨if_neg notWf, noWord, fun w h => notWf (decode_wf h), noStmt, ?program⟩
  rintro p (mem | ⟨v, mem⟩)
  · exact expandFrom_eq_none mem (fun l => by rw [Item.expand, noStmt]; rfl) _
  · exact expandFrom_eq_none mem (fun l => by rw [Item.expand, pushStmts, noStmt]; rfl) _

/-! ### Fresh labels (R80) -/

theorem count_label_waitStmts (k l : Nat) : (waitStmts l).count (.label k) = if l = k then 1 else 0 := by
  simp [waitStmts, List.count_cons]

theorem count_label_pushStmts {n : Nat} {v : Word} {part : List Stmt} (h : pushStmts n v = some part) (k : Nat) :
    part.count (.label k) = 0 := by
  obtain ⟨c, hc, rfl⟩ := Option.map_eq_some_iff.mp h
  obtain ⟨w, -, rfl⟩ := Option.map_eq_some_iff.mp hc
  rfl

theorem count_label_readDigestStmts (k : Nat) : readDigestStmts.count (.label k) = 0 := by
  simp [readDigestStmts, List.count_eq_zero]

theorem count_label_groupStmts (k : Nat) (g : List Byte × Nat) :
    (groupStmts g).count (.label k) = if g.2 = k then 1 else 0 := by
  rw [groupStmts, List.count_append, count_label_waitStmts]
  simp

/-- The WAITs after the groups of HASHMSG name one label each, counted upward. -/
theorem count_label_groups (k l : Nat) (gs : List (List Byte)) :
    ((gs.zipIdx l).flatMap groupStmts).count (.label k) = if l ≤ k ∧ k < l + gs.length then 1 else 0 := by
  induction gs generalizing l with
  | nil => simp
  | cons g gs ih =>
    rw [List.zipIdx_cons, List.flatMap_cons, List.count_append, count_label_groupStmts, ih, List.length_cons]
    split_ifs <;> omega

theorem count_label_hashStmts (k l : Nat) (gs : List (List Byte)) :
    (hashStmts l gs).count (.label k) = if l ≤ k ∧ k < l + (gs.length + 2) then 1 else 0 := by
  have noLabel (w : Word) : [Stmt.wr .cmd w].count (.label k) = 0 := by simp
  simp only [hashStmts, List.count_append, noLabel, count_label_waitStmts, count_label_groups,
    count_label_readDigestStmts]
  split_ifs <;> omega

/-- An item names each of its fresh labels at one place, and no other label from its own label bound on. -/
theorem count_label_expand {k l : Nat} {it : Item} {part : List Stmt} (own : it.labelBound ≤ k)
    (h : it.expand l = some part) :
    part.count (.label k) = if l ≤ k ∧ k < l + it.labels then 1 else 0 := by
  have noFresh : ¬ (l ≤ k ∧ k < l + 0) := by omega
  cases it with
  | stmt st =>
    cases h
    have other : st ≠ .label k := by rintro rfl; exact absurd own (Nat.not_succ_le_self k)
    rw [Item.labels, if_neg noFresh, List.count_singleton, if_neg (by simpa using other)]
  | command i =>
    obtain ⟨c, hc, rfl⟩ := Option.map_eq_some_iff.mp h
    obtain ⟨w, -, rfl⟩ := Option.map_eq_some_iff.mp hc
    rw [Item.labels, if_neg noFresh]; rfl
  | wait =>
    cases h
    rw [Item.labels, count_label_waitStmts]
    split_ifs <;> omega
  | push n v => rw [Item.labels, if_neg noFresh, count_label_pushStmts h]
  | pushw v => rw [Item.labels, if_neg noFresh, count_label_pushStmts h]
  | readDigest =>
    cases h
    rw [Item.labels, if_neg noFresh, count_label_readDigestStmts]
  | hashMsg m =>
    rw [expand_hashMsg] at h
    cases h
    exact count_label_hashStmts k l (groups4 m)

/-- In a program's statements no label from its own labels on names two places. -/
theorem count_label_expandFrom {k l : Nat} {p : List Item} {sts : List Stmt} (own : freshLabel p ≤ k)
    (h : expandFrom l p = some sts) :
    sts.count (.label k) = if l ≤ k ∧ k < l + (p.map Item.labels).sum then 1 else 0 := by
  induction p generalizing l sts with
  | nil => cases h; simp
  | cons it p ih =>
    obtain ⟨a, b, ha, hb, rfl⟩ := expandFrom_cons.mp h
    have ⟨ownHead, ownTail⟩ := max_le_iff.mp own
    rw [List.count_append, count_label_expand ownHead ha, ih ownTail hb, List.map_cons, List.sum_cons]
    split_ifs <;> omega

/-- A label named at one place stands where `labelPos` finds it. -/
theorem labelPos_of_count_le_one {k : Nat} {pre post : List Stmt}
    (h : (pre ++ .label k :: post).count (.label k) ≤ 1) :
    labelPos k (pre ++ .label k :: post) = some (pre.length + 1) := by
  rw [List.count_append, List.count_cons_self] at h
  have notBefore : Stmt.label k ∉ pre := List.count_eq_zero.mp (by omega)
  exact labelPos_append k pre post fun st mem eq => notBefore (eq ▸ mem)

/-- A program's own labels lie below freshLabel. -/
theorem label_lt_freshLabel {l : Nat} {p : List Item}
    (h : .stmt (.label l) ∈ p ∨ ∃ x mask, .stmt (.bnz x mask l) ∈ p) : l < freshLabel p := by
  rcases h with h | ⟨x, mask, h⟩
  · exact labelBound_le_freshLabel h
  · exact labelBound_le_freshLabel h

/-- Settles O58: the rows by the items' equations, the groups by `groups4_lengths`, and the fresh labels by counting: each
stands at one place at most (`count_label_expandFrom`), where `labelPos` finds it. -/
theorem pseudoInstructionsExpandWithFreshLabels : Obligations.PseudoInstructionsExpandWithFreshLabels := by
  refine ⟨fun l w i h => expand_command h l, fun _ _ => rfl, fun _ => rfl, fun l n v w h => expand_push h l v,
    fun _ _ => rfl, fun _ => rfl, expand_hashMsg, fun m => ⟨flatten_groups4 m, fun _ _ _ => groups4_lengths⟩,
    fun g k hg hk => ?bytes, fun p update push => ?expands, fun p sts h => ⟨expandFrom_parts h,
    fun l => label_lt_freshLabel, ?labels⟩⟩
  case bytes => rw [extractLsb'_groupWord g hk, getElem?_append_zeros hg hk]
  case expands =>
    refine exists_expandFrom (fun it mem => exists_expand ?_ ?_) _
    · rintro n rfl; exact update n mem
    · rintro n v rfl; exact push n v mem
  case labels =>
    rintro l pre post fresh rfl
    apply labelPos_of_count_le_one
    rw [count_label_expandFrom fresh h]
    split <;> omega

end Sys2Proof.Machine
end

section
/-! The combinational word functions bit by bit (R90, R91, R121, R122, R140 to R143). -/

namespace Sys2Proof.Machine

/-- A bit at a place that does not pass bit 31 comes from the right shift, one that does from the left shift (R90). -/
theorem getLsbD_rotr (x : Word) {n i : Nat} (hn : n ≤ 31) (hi : i < 32) :
    (rotr x n).getLsbD i = x.getLsbD ((i + n) % 32) := by
  rw [rotr, BitVec.getLsbD_or, BitVec.getLsbD_ushiftRight, BitVec.getLsbD_shiftLeft, Nat.add_comm n i]
  rcases Nat.lt_or_ge (i + n) 32 with inside | wraps
  · have notLeft : i < 32 - n := by omega
    simp [notLeft, Nat.mod_eq_of_lt inside]
  · have place : (i + n) % 32 = i - (32 - n) := by omega
    have gone : x.getLsbD (i + n) = false := BitVec.getLsbD_of_ge x _ wraps
    have fromLeft : ¬ i < 32 - n := by omega
    simp [gone, fromLeft, hi, place]

/-- The bits past bit 31 of a word are 0, so zeros enter a right shift (R91). -/
theorem getLsbD_shr (x : Word) (n i : Nat) :
    (shr x n).getLsbD i = if i + n < 32 then x.getLsbD (i + n) else false := by
  rw [shr, BitVec.getLsbD_ushiftRight, Nat.add_comm]
  split_ifs with inside
  · rfl
  · exact BitVec.getLsbD_of_ge x _ (Nat.le_of_not_lt inside)

/-- Ch chooses by the bit of its first operand (R142). -/
theorem getLsbD_ch (x y z : Word) {i : Nat} (hi : i < 32) :
    (ch x y z).getLsbD i = if x.getLsbD i then y.getLsbD i else z.getLsbD i := by
  simp only [ch, BitVec.getLsbD_xor, BitVec.getLsbD_and, BitVec.getLsbD_not, hi]
  cases x.getLsbD i <;> simp

/-- Maj is 1 where at least two of its operands are (R143). -/
theorem getLsbD_maj_iff (x y z : Word) (i : Nat) :
    (maj x y z).getLsbD i = true ↔ 2 ≤ (x.getLsbD i).toNat + (y.getLsbD i).toNat + (z.getLsbD i).toNat := by
  have majority : ∀ a b c : Bool, ((a && b) ^^ (a && c) ^^ (b && c)) = true ↔ 2 ≤ a.toNat + b.toNat + c.toNat := by
    decide
  simp only [maj, BitVec.getLsbD_xor, BitVec.getLsbD_and, majority]

/-- Settles O53: the sigmas are the xor of what `getLsbD_rotr` and `getLsbD_shr` say of their parts; a shift's bit i stays
inside the word at i < 29 for σ0 and at i < 22 for σ1. -/
theorem wordFunctionsBitByBit : Obligations.WordFunctionsBitByBit := by
  refine ⟨fun x n i hn hi => ⟨getLsbD_rotr x hn hi, getLsbD_shr x n i⟩, fun x i hi => ?sigmas,
    fun x y z i hi => ⟨getLsbD_ch x y z hi, getLsbD_maj_iff x y z i⟩⟩
  have rotation {n : Nat} (hn : n ≤ 31) := getLsbD_rotr x hn hi
  have cut3 : i + 3 < 32 ↔ i < 29 := by omega
  have cut10 : i + 10 < 32 ↔ i < 22 := by omega
  refine ⟨?_, ?_, ?_, ?_⟩
  · simp only [smallSigma0, BitVec.getLsbD_xor, rotation, getLsbD_shr, cut3, Nat.reduceLeDiff]
  · simp only [smallSigma1, BitVec.getLsbD_xor, rotation, getLsbD_shr, cut10, Nat.reduceLeDiff]
  · simp only [bigSigma0, BitVec.getLsbD_xor, rotation, Nat.reduceLeDiff]
  · simp only [bigSigma1, BitVec.getLsbD_xor, rotation, Nat.reduceLeDiff]

end Sys2Proof.Machine
end

section
/-! LEN after every step (R105). -/

namespace Sys2Proof.Machine

/-- No micro-step writes LEN (R105). -/
theorem coreStep_len {s t : State} (h : coreStep s = .next t) : t.len = s.len := by
  rcases coreStep_cases h with ⟨-, rfl⟩ | ⟨-, -, rfl⟩ | ⟨-, rfl⟩ | ⟨-, rfl⟩ <;> simp

/-- Settles O17: LEN by the effect of each kind of step, none of the core's micro-steps writing it (`coreStep_len`). -/
theorem lenIsWrittenOnlyByInitUpdateReset : Obligations.LenIsWrittenOnlyByInitUpdateReset := by
  intro s t hstep
  cases step_effect hstep with
  | core _ noReset _ noAccept _ eff => simp [coreStep_len eff, noReset, noAccept]
  | reset _ resets _ _ _ eff => simp [eff, resets, State.reset]
  | refused _ _ _ _ noReset _ noAccept _ eff => simp [eff, noReset, noAccept]
  | accepted _ i _ _ noReset _ accept _ _ _ _ eff => cases i <;> simp [eff, noReset, accept, acceptEffect]
  | dataIn _ _ _ noReset _ noAccept _ eff => simp [eff, noReset, noAccept]
  | hostOnly _ _ noReset _ noAccept _ eff => simp [eff, noReset, noAccept]

end Sys2Proof.Machine
end

section
/-! The padded message and its blocks (R101 to R104, R109). -/

namespace Sys2Proof.Machine

theorem zeroCount_lt (L : Nat) : zeroCount L < 64 := Nat.mod_lt _ (by decide)

/-- The marker byte and the zeros bring the message to 8 bytes short of whole blocks (R102). -/
theorem zeroCount_add_mod (L : Nat) : (zeroCount L + L) % 64 = 55 := by unfold zeroCount; omega

/-- pad(m) in closed form (R101, R102). -/
theorem pad_eq (m : List Byte) :
    pad m = m ++ [0x80] ++ List.replicate (zeroCount m.length) 0x00 ++ be64Bytes (BitVec.ofNat 64 (8 * m.length)) := by
  have lt := zeroCount_lt m.length
  have residue := zeroCount_add_mod m.length
  rw [pad, padZeros_eq (zeroCount m.length) 64 _ lt _ lt]
  rw [List.length_append, List.length_singleton]; omega

theorem length_pad (m : List Byte) : (pad m).length = m.length + 1 + zeroCount m.length + 8 := by
  simp [pad_eq]; omega

/-- pad(m) is N(L) whole blocks long (R103). -/
theorem length_pad_eq_blocks (m : List Byte) : (pad m).length = 64 * blockCount m.length := by
  rw [length_pad, zeroCount, blockCount]; omega

/-- Settles O48: the closed form (`pad_eq`), and the count's residue (`zeroCount_add_mod`). -/
theorem padInsertsTheCountedZeros : Obligations.PadInsertsTheCountedZeros := by
  intro m
  refine ⟨pad_eq m, Nat.le_of_lt_succ (zeroCount_lt _), zeroCount_add_mod _, length_pad m, ?_⟩
  rw [length_pad_eq_blocks]; exact Nat.mul_mod_right _ _

theorem length_blocks_pad (m : List Byte) : (blocks (pad m)).length = blockCount m.length := by
  simp [blocks, length_pad_eq_blocks]

/-- A block inside a byte sequence is 64 consecutive bytes of it (R104). -/
theorem toList_blockAt {p : List Byte} {i : Nat} (inside : 64 * i + 64 ≤ p.length) :
    (blockAt p i).toList = (p.drop (64 * i)).take 64 := by
  apply List.ext_getElem
  · simp; omega
  · intro j hj _
    have hj64 : j < 64 := by simpa using hj
    rw [Vector.getElem_toList, getElem_blockAt _ _ _ hj64, List.getElem_take, List.getElem_drop]
    exact (List.getElem_eq_getD 0).symm

/-- The first n blocks one after another are the first 64·n bytes (R104). -/
theorem flatMap_blockAt (p : List Byte) (n : Nat) (inside : 64 * n ≤ p.length) :
    ((List.range n).map (blockAt p)).flatMap Vector.toList = p.take (64 * n) := by
  induction n with
  | zero => simp
  | succ n ih =>
    rw [List.range_succ, List.map_append, List.flatMap_append, ih (by omega), Nat.mul_succ, List.take_add]
    simp [toList_blockAt (p := p) (i := n) (by omega)]

/-- Settles O49: pad(m) is `blockCount` blocks long, and its blocks are its bytes in order (`flatMap_blockAt`). -/
theorem blockCountOfAMessage : Obligations.BlockCountOfAMessage := by
  refine ⟨by decide, fun m => ⟨length_blocks_pad m, ?oneMore, ?inOrder⟩⟩
  case oneMore => rw [length_blocks_pad, blockCount]; omega
  case inOrder =>
    have whole := length_pad_eq_blocks m
    rw [blocks, whole, Nat.mul_div_cancel_left _ (by decide), flatMap_blockAt _ _ whole.ge, ← whole, List.take_length]

theorem toNat_lengthByte (v : BitVec 64) (j : Nat) : (lengthByte v j).toNat = v.toNat / 2 ^ (56 - 8 * j) % 256 := by
  simp [lengthByte, BitVec.extractLsb'_toNat, Nat.shiftRight_eq_div_pow]

/-- Reading the eight big-endian bytes of a 64-bit value gives the value back (R12). -/
theorem foldl_be64Bytes (v : BitVec 64) : (be64Bytes v).foldl (fun n b => 256 * n + b.toNat) 0 = v.toNat := by
  have range8 : List.range 8 = [0, 1, 2, 3, 4, 5, 6, 7] := by decide
  have := v.isLt
  simp only [be64Bytes, range8, List.map_cons, List.map_nil, List.foldl_cons, List.foldl_nil, toNat_lengthByte]
  omega

/-- The last 8 bytes of pad(m) are its length field (R101). -/
theorem drop_pad (m : List Byte) :
    (pad m).drop ((pad m).length - 8) = be64Bytes (BitVec.ofNat 64 (8 * m.length)) := by
  rw [pad_eq]
  exact List.drop_left' (by simp; omega)

/-- Settles O50: the length is counted in blocks (`length_pad_eq_blocks`), and the last 8 bytes are the length field
(`drop_pad`), which does not wrap here. -/
theorem paddingIsRecoverable : Obligations.PaddingIsRecoverable := by
  intro m bounded
  refine ⟨?whole, ?longer, ?recovered⟩
  case whole => rw [length_pad_eq_blocks]; omega
  case longer => rw [length_pad]; omega
  case recovered =>
    rw [drop_pad, foldl_be64Bytes, BitVec.toNat_ofNat, Nat.mod_eq_of_lt bounded, Nat.mul_div_cancel_left _ (by decide)]

/-- pad(m) byte by byte (R101). -/
theorem getD_pad (m : List Byte) (i : Nat) (h : i < 64 * blockCount m.length) :
    (pad m).getD i 0 =
      if i < m.length then m.getD i 0
      else if i = m.length then 0x80
      else if i < 64 * blockCount m.length - 8 then 0x00
      else lengthByte (BitVec.ofNat 64 (8 * m.length)) (i - (64 * blockCount m.length - 8)) := by
  have len := length_pad_eq_blocks m
  rw [length_pad] at len
  rw [pad_eq]
  split_ifs with inside marker zeros
  · rw [List.append_assoc, List.append_assoc, List.getD_append _ _ _ _ inside]
  · subst marker; simp
  · rw [List.getD_append _ _ _ _ (by simp; omega), List.getD_append_right _ _ _ _ (by simp; omega)]
    simp
  · rw [List.getD_append_right _ _ _ _ (by simp; omega), getD_be64Bytes _ _ (by simp; omega)]
    congr 1; simp; omega

end Sys2Proof.Machine
end

section
/-! A job on one block, micro-step by micro-step (R124, R145 to R148). -/

namespace Sys2Proof.Machine

/-! ### What SCHED and ROUND set -/

theorem toNat_add_one_of_ne_63 {t : BitVec 6} (notLast : t ≠ 63) : (t + 1).toNat = t.toNat + 1 := by bv_omega

theorem schedStep_t (s : State) : (schedStep s).t = if s.t = 63 then 0 else s.t + 1 := by
  unfold schedStep; split <;> rfl

theorem roundStep_t (s : State) : (roundStep s).t = if s.t = 63 then s.t else s.t + 1 := by
  unfold roundStep; split <;> rfl

/-- SCHED(16 + k) takes a schedule of k computed words to one of k + 1 (R123, R124). -/
theorem schedStep_W {s : State} {k : Nat} {W : Vector Word 64} (index : s.t.toNat = 16 + k)
    (words : s.W = extendWords k W) : (schedStep s).W = extendWords (k + 1) W := by
  have inside : 16 + k < 64 := index ▸ s.t.isLt
  have write : (schedStep s).W = s.W.set (16 + k) (schedWord s.W (16 + k) inside) inside := by
    unfold schedStep; simp only [index]; split <;> rfl
  rw [write, words, extendWords, dif_pos inside]

/-- ROUND(t) takes the registers after t rounds to those after t + 1 (R145, R146). -/
theorem roundStep_work {s : State} {r : Working} (rounds : s.work = roundsFrom s.W s.t.toNat r) :
    (roundStep s).work = roundsFrom s.W (s.t.toNat + 1) r := by
  have write : (roundStep s).work = roundFn (Config.K[s.t.toNat]'s.t.isLt) (s.W[s.t.toNat]'s.t.isLt) s.work := by
    unfold roundStep; split <;> rfl
  rw [write, roundsFrom_succ _ _ _ s.t.isLt, rounds]

/-! ### The job -/

/-- A job on the block `B` is running, and how far it has come (R124, R146, R148). H does not change before its FOLD. -/
def JobOnBlock (B : Vector Byte 64) (s : State) : Prop :=
  match s.phase with
  | .idle => False
  | .sched => 16 ≤ s.t.toNat ∧ s.work = Working.ofHash s.H ∧ ∃ W0, s.W = extendWords (s.t.toNat - 16) (loadWords B W0)
  | .round => s.W = scheduleOf B ∧ s.work = roundsFrom (scheduleOf B) s.t.toNat (Working.ofHash s.H)
  | .fold => s.W = scheduleOf B ∧ s.work = roundsFrom (scheduleOf B) 64 (Working.ofHash s.H)

section Phases
variable {B : Vector Byte 64} {s : State}

theorem jobOnBlock_sched (phase : s.phase = .sched) : JobOnBlock B s ↔
    16 ≤ s.t.toNat ∧ s.work = Working.ofHash s.H ∧ ∃ W0, s.W = extendWords (s.t.toNat - 16) (loadWords B W0) := by
  simp only [JobOnBlock, phase]

theorem jobOnBlock_round (phase : s.phase = .round) : JobOnBlock B s ↔
    s.W = scheduleOf B ∧ s.work = roundsFrom (scheduleOf B) s.t.toNat (Working.ofHash s.H) := by
  simp only [JobOnBlock, phase]

theorem jobOnBlock_fold (phase : s.phase = .fold) : JobOnBlock B s ↔
    s.W = scheduleOf B ∧ s.work = roundsFrom (scheduleOf B) 64 (Working.ofHash s.H) := by
  simp only [JobOnBlock, phase]

theorem JobOnBlock.running (job : JobOnBlock B s) : s.phase ≠ .idle := by
  intro idle
  simp only [JobOnBlock, idle] at job

/-- A job reads these fields only. -/
theorem JobOnBlock.congr {t : State} (job : JobOnBlock B s) (phase : t.phase = s.phase) (index : t.t = s.t)
    (hash : t.H = s.H) (words : t.W = s.W) (work : t.work = s.work) : JobOnBlock B t := by
  unfold JobOnBlock at job ⊢
  rw [phase, index, hash, words, work]; exact job

/-- LOAD starts the job on the block in BUF (R144); the state counts from there, whatever else it holds. -/
theorem jobOnBlock_of_loaded {W0 : Vector Word 64} (phase : s.phase = .sched) (index : s.t = 16)
    (words : s.W = loadWords B W0) (work : s.work = Working.ofHash s.H) : JobOnBlock B s :=
  (jobOnBlock_sched phase).mpr ⟨by simp [index], work, W0, by simp [index, words, extendWords]⟩

/-- SCHED goes on with the job; its last step gives the whole schedule (R124). -/
theorem JobOnBlock.schedStep (job : JobOnBlock B s) (phase : s.phase = .sched) : JobOnBlock B (schedStep s) := by
  obtain ⟨low, work, W0, words⟩ := (jobOnBlock_sched phase).mp job
  have next := schedStep_W (k := s.t.toNat - 16) (by omega) words
  have phase' := schedStep_phase s
  have index' := schedStep_t s
  by_cases last : s.t = 63
  · rw [if_pos last] at phase' index'
    refine (jobOnBlock_round phase').mpr ⟨?_, ?_⟩
    · rw [next, last]; exact extendWords_load B W0
    · rw [index', schedStep_work, schedStep_H]; exact work
  · rw [if_neg last] at phase' index'
    have count := toNat_add_one_of_ne_63 last
    refine (jobOnBlock_sched (phase'.trans phase)).mpr ⟨?_, ?_, W0, ?_⟩
    · rw [index']; omega
    · rw [schedStep_work, schedStep_H]; exact work
    · rw [next, index']; congr 1; omega

/-- ROUND goes on with the job (R146). -/
theorem JobOnBlock.roundStep (job : JobOnBlock B s) (phase : s.phase = .round) : JobOnBlock B (roundStep s) := by
  obtain ⟨words, work⟩ := (jobOnBlock_round phase).mp job
  have next := roundStep_work (words.symm ▸ work)
  rw [words] at next
  have phase' := roundStep_phase s
  have index' := roundStep_t s
  by_cases last : s.t = 63
  · rw [if_pos last] at phase'
    refine (jobOnBlock_fold phase').mpr ⟨by simpa using words, ?_⟩
    rw [next, last, roundStep_H]; rfl
  · rw [if_neg last] at phase' index'
    refine (jobOnBlock_round (phase'.trans phase)).mpr ⟨by simpa using words, ?_⟩
    rw [next, index', toNat_add_one_of_ne_63 last, roundStep_H]

/-- FOLD ends the job with H compressed by the block (R147, R148). -/
theorem JobOnBlock.foldStep_H (job : JobOnBlock B s) (phase : s.phase = .fold) :
    (foldStep s).H = compress s.H B := by
  obtain ⟨-, work⟩ := (jobOnBlock_fold phase).mp job
  rw [Machine.foldStep_H, work, compress]

end Phases

/-- The fields that no SCHED or ROUND step writes (R124, R146). -/
structure KeptInJob (s t : State) : Prop where
  H : t.H = s.H
  buf : t.buf = s.buf
  bufcnt : t.bufcnt = s.bufcnt
  len : t.len = s.len
  pend2 : t.pend2 = s.pend2
  fin : t.fin = s.fin
  done : t.done = s.done

/-- All that the core's turn can do to a job: one more step of it, or the FOLD that ends it (R29). -/
theorem JobOnBlock.coreStep_cases {B : Vector Byte 64} {s t : State} (job : JobOnBlock B s)
    (turn : coreStep s = .next t) :
    (KeptInJob s t ∧ JobOnBlock B t) ∨ (t = Machine.foldStep s ∧ t.H = compress s.H B) := by
  rcases Machine.coreStep_cases turn with ⟨idle, -⟩ | ⟨phase, -, rfl⟩ | ⟨phase, rfl⟩ | ⟨phase, rfl⟩
  · exact absurd idle job.running
  · exact .inl ⟨by constructor <;> simp, job.schedStep phase⟩
  · exact .inl ⟨by constructor <;> simp, job.roundStep phase⟩
  · exact .inr ⟨rfl, job.foldStep_H phase⟩

/-- The job that `Represents` speaks of is the one on the message's last full block, with H as it was at the LOAD. -/
theorem exists_jobOn_iff {m : List Byte} {s : State} (hash : s.H = chainValue m (m.length / 64 - 1)) :
    (∃ W0, JobOn m W0 s) ↔ JobOnBlock (blockAt m (m.length / 64 - 1)) s := by
  unfold JobOn JobOnBlock
  cases s.phase with
  | idle => simp
  | sched => simp only [← hash]; tauto
  | round => simp [← hash, extendWords_load]
  | fold => simp [← hash, extendWords_load]

end Sys2Proof.Machine
end

section
/-! Every step keeps the picture of the message (R107, R149): what UPDATE writes into BUF, what the core's job makes of
H, and what the rest of a step leaves alone. -/

namespace Sys2Proof.Machine

/-! ### BUF as a block of the message under way -/

/-- The first `n` bytes of `buf` are those of block `i` of `p`. -/
def BufHolds (p : List Byte) (i n : Nat) (buf : Vector Byte 64) : Prop :=
  ∀ (j : Nat) (h : j < 64), j < n → buf[j] = p.getD (64 * i + j) 0

section Buffer
variable {p : List Byte} {i n : Nat} {buf : Vector Byte 64}

theorem bufHolds_zero : BufHolds p i 0 buf := fun _ _ none => absurd none (Nat.not_lt_zero _)

theorem BufHolds.eq_blockAt (full : BufHolds p i 64 buf) : buf = blockAt p i := by
  apply Vector.ext
  intro j hj
  rw [getElem_blockAt, full j hj hj]

/-- Bytes written behind the message's own are the next bytes of the message (R173). -/
theorem BufHolds.writeBytes (held : BufHolds p i n buf) (ends : p.length = 64 * i + n) (bs : List Byte) :
    BufHolds (p ++ bs) i (n + bs.length) (writeBytes bs n buf) := by
  intro j hj below
  rw [getElem_writeBytes]
  by_cases new : n ≤ j
  · rw [if_pos ⟨new, below⟩, List.getD_append_right _ _ _ _ (by omega)]
    congr 1; omega
  · rw [if_neg (by omega), List.getD_append _ _ _ _ (by omega)]
    exact held j hj (by omega)

/-- The bytes that fill BUF complete the block (R173). -/
theorem BufHolds.writeBytes_take (held : BufHolds p i n buf) (ends : p.length = 64 * i + n) {bs : List Byte}
    (room : n < 64) (fills : 64 ≤ n + bs.length) :
    Machine.writeBytes (bs.take (64 - n)) n buf = blockAt (p ++ bs) i := by
  have taken : (bs.take (64 - n)).length = 64 - n := by rw [List.length_take]; omega
  have full := held.writeBytes ends (bs.take (64 - n))
  rw [taken, Nat.add_sub_cancel' (Nat.le_of_lt room)] at full
  calc Machine.writeBytes (bs.take (64 - n)) n buf
      _ = blockAt (p ++ bs.take (64 - n)) i := full.eq_blockAt
      _ = blockAt (p ++ bs.take (64 - n) ++ bs.drop (64 - n)) i :=
        (blockAt_append _ _ _ (by rw [List.length_append, taken]; omega)).symm
      _ = blockAt (p ++ bs) i := by rw [List.append_assoc, List.take_append_drop]

/-- The bytes left over are the first bytes of the next block, whatever BUF holds (R173). -/
theorem bufHolds_writeBytes_drop (ends : p.length = 64 * i + n) {bs : List Byte} (room : n < 64)
    (fills : 64 ≤ n + bs.length) :
    BufHolds (p ++ bs) (i + 1) (n + bs.length - 64) (writeBytes (bs.drop (64 - n)) 0 buf) := by
  have whole : (p ++ bs.take (64 - n)).length = 64 * (i + 1) + 0 := by
    rw [List.length_append, List.length_take]; omega
  have left : 0 + (bs.drop (64 - n)).length = n + bs.length - 64 := by rw [List.length_drop]; omega
  have next := (bufHolds_zero (buf := buf)).writeBytes whole (bs.drop (64 - n))
  rwa [List.append_assoc, List.take_append_drop, left] at next

end Buffer

/-! ### UPDATE as one record (R173) -/

/-- An UPDATE that leaves room in BUF only writes its bytes. -/
theorem absorbUpdate_open {n : Nat} {s : State} (room : s.bufcnt.toNat + n < 64) :
    absorbUpdate n s = { s with
      len := s.len + BitVec.ofNat 64 (8 * n)
      buf := writeBytes (updateBytes n s.dataIn) s.bufcnt.toNat s.buf
      bufcnt := BitVec.ofNat 6 (s.bufcnt.toNat + n) } := by
  rw [absorbUpdate, absorbBytes_open _ _ _ (by simpa using room), length_updateBytes]; rfl

/-- An UPDATE that fills BUF with `block` LOADs it, and the bytes left over start the next block. -/
theorem absorbUpdate_fill {n : Nat} {s : State} (few : n ≤ 4) (fills : 64 ≤ s.bufcnt.toNat + n) {block : Vector Byte 64}
    (full : writeBytes ((updateBytes n s.dataIn).take (64 - s.bufcnt.toNat)) s.bufcnt.toNat s.buf = block) :
    absorbUpdate n s = { s with
      len := s.len + BitVec.ofNat 64 (8 * n)
      buf := writeBytes ((updateBytes n s.dataIn).drop (64 - s.bufcnt.toNat)) 0 block
      bufcnt := BitVec.ofNat 6 (s.bufcnt.toNat + n - 64)
      W := loadWords block s.W
      work := Working.ofHash s.H
      phase := .sched
      t := 16 } := by
  have := s.bufcnt.isLt
  rw [absorbUpdate, absorbBytes_fill _ _ _ (by omega) (by rw [length_updateBytes]; omega)
    (by rw [length_updateBytes]; omega), length_updateBytes, ← full]
  rfl

/-! ### The steps of a message -/

/-- LEN after n more bytes (R105). -/
theorem bits_append (m bs : List Byte) :
    BitVec.ofNat 64 (8 * m.length) + BitVec.ofNat 64 (8 * bs.length) = BitVec.ofNat 64 (8 * (m ++ bs).length) := by
  rw [← BitVec.ofNat_add, List.length_append, Nat.mul_add]

section Message
variable {m : List Byte} {s t : State}

theorem Represents.bufHolds (h : Represents m s) : BufHolds m (m.length / 64) (m.length % 64) s.buf := h.held

theorem Represents.length_eq (h : Represents m s) : m.length = 64 * (m.length / 64) + s.bufcnt.toNat := by
  rw [h.count]; exact (Nat.div_add_mod _ _).symm

/-- An UPDATE that leaves room takes a core that holds m to one that holds m and the UPDATE's bytes (R107). -/
theorem Represents.update_open {n : Nat} (h : Represents m s) (idle : s.phase = .idle)
    (room : s.bufcnt.toNat + n < 64) : Represents (m ++ updateBytes n s.dataIn) (absorbUpdate n s) := by
  have split := h.length_eq
  have written := h.bufHolds.writeBytes (Nat.div_add_mod _ _).symm (updateBytes n s.dataIn)
  have length : (m ++ updateBytes n s.dataIn).length = m.length + n := by simp
  have block : (m.length + n) / 64 = m.length / 64 := by omega
  have rest : (m.length + n) % 64 = s.bufcnt.toNat + n := by omega
  rw [length_updateBytes, ← h.count] at written
  rw [absorbUpdate_open room]
  exact {
    notDone := h.notDone
    notFinal := h.notFinal
    noPending := h.noPending
    bits := by rw [← bits_append, ← h.bits, length_updateBytes]
    count := by rw [length, rest, BitVec.toNat_ofNat, Nat.mod_eq_of_lt room]
    held := by rw [length, rest, block]; exact written
    chainIdle := fun _ => by
      rw [length, block, chainValue_append _ _ _ (by omega)]; exact h.chainIdle idle
    chainBusy := fun running => absurd idle running }

/-- An UPDATE that fills BUF starts the job on the block that m and the UPDATE's bytes complete (R107, R149). -/
theorem Represents.update_fill {n : Nat} (h : Represents m s) (idle : s.phase = .idle) (few : n ≤ 4)
    (fills : 64 ≤ s.bufcnt.toNat + n) : Represents (m ++ updateBytes n s.dataIn) (absorbUpdate n s) := by
  have split := h.length_eq
  have room := s.bufcnt.isLt
  have held := h.bufHolds
  rw [← h.count] at held
  obtain ⟨bs, hbs⟩ : ∃ bs, updateBytes n s.dataIn = bs := ⟨_, rfl⟩
  obtain rfl : bs.length = n := by rw [← hbs, length_updateBytes]
  have full := held.writeBytes_take split room fills
  rw [absorbUpdate_fill few fills (hbs.symm ▸ full), hbs]
  have length : (m ++ bs).length = m.length + bs.length := List.length_append
  have block : (m.length + bs.length) / 64 = m.length / 64 + 1 := by omega
  have rest : (m.length + bs.length) % 64 = s.bufcnt.toNat + bs.length - 64 := by omega
  have hash : s.H = chainValue (m ++ bs) ((m ++ bs).length / 64 - 1) := by
    rw [length, block, Nat.add_sub_cancel, chainValue_append _ _ _ (by omega)]; exact h.chainIdle idle
  exact {
    notDone := h.notDone
    notFinal := h.notFinal
    noPending := h.noPending
    bits := by rw [← bits_append, ← h.bits]
    count := by rw [length, rest, BitVec.toNat_ofNat]; omega
    held := by rw [length, rest, block]; exact bufHolds_writeBytes_drop split room fills
    chainIdle := fun idle' => nomatch idle'
    chainBusy := fun _ => by
      refine ⟨by omega, hash, (exists_jobOn_iff ?_).mpr (jobOnBlock_of_loaded (W0 := s.W) ?_ ?_ ?_ ?_)⟩
      · exact hash
      · rfl
      · rfl
      · rw [length, block, Nat.add_sub_cancel]
      · rfl }

/-- UPDATE takes a core that holds m to one that holds m and the UPDATE's bytes (R107). -/
theorem Represents.update {n : Nat} (h : Represents m s) (idle : s.phase = .idle) (few : n ≤ 4) :
    Represents (m ++ updateBytes n s.dataIn) (absorbUpdate n s) := by
  rcases Nat.lt_or_ge (s.bufcnt.toNat + n) 64 with room | fills
  · exact h.update_open idle room
  · exact h.update_fill idle few fills

/-- While a core that holds m is busy, its job is on the last full block of m (R149). -/
theorem Represents.job (h : Represents m s) (running : s.phase ≠ .idle) :
    JobOnBlock (blockAt m (m.length / 64 - 1)) s := by
  obtain ⟨-, hash, job⟩ := h.chainBusy running
  exact (exists_jobOn_iff hash).mp job

/-- The core's turn keeps the message; the FOLD of its job completes the chain of the full blocks (R148, R149). -/
theorem Represents.coreStep (h : Represents m s) (turn : coreStep s = .next t) : Represents m t := by
  by_cases idle : s.phase = .idle
  · rw [coreStep_idle idle] at turn; cases turn; exact h
  obtain ⟨full, hash, -⟩ := h.chainBusy idle
  rcases (h.job idle).coreStep_cases turn with ⟨kept, job⟩ | ⟨rfl, folded⟩
  · exact {
      notDone := kept.done.trans h.notDone
      notFinal := kept.fin.trans h.notFinal
      noPending := kept.pend2.trans h.noPending
      bits := kept.len.trans h.bits
      count := kept.bufcnt.symm ▸ h.count
      held := kept.buf.symm ▸ h.held
      chainIdle := fun idle' => absurd idle' job.running
      chainBusy := fun _ => ⟨full, kept.H.trans hash, (exists_jobOn_iff (kept.H.trans hash)).mpr job⟩ }
  · exact {
      notDone := by simp [h.notDone, h.notFinal]
      notFinal := by simp [h.notFinal]
      noPending := foldStep_pend2 s
      bits := by simpa using h.bits
      count := by simpa using h.count
      held := by simpa using h.held
      chainIdle := fun _ => by
        rw [folded, hash, ← chainValue_succ, Nat.sub_add_cancel (by omega)]
      chainBusy := fun running => absurd (by simp [foldStep_phase, h.noPending]) running }

/-- The host's side and the turns are no part of the picture. -/
theorem Represents.served (h : Represents m s) (hs : HostSide) : Represents m (s.popTurn.setHost hs) :=
  h.congr rfl rfl rfl rfl rfl rfl rfl rfl rfl rfl rfl

theorem Represents.popTurn (h : Represents m s) : Represents m s.popTurn :=
  h.congr rfl rfl rfl rfl rfl rfl rfl rfl rfl rfl rfl

/-- A refused command changes the error record only (R202). -/
theorem Represents.raiseError (h : Represents m s) (e : ErrCode) : Represents m (raiseError e s) := by
  apply h.congr <;> simp

/-- A step that accepts no UPDATE takes no bytes. -/
theorem takenBytes_of_accepts_none (none : s.accepts = none) : s.takenBytes = [] := by
  rw [State.takenBytes, none]

end Message

/-- Settles O54: UPDATE appends its bytes (`Represents.update`), the core's turn keeps the message
(`Represents.coreStep`), and every other step leaves the picture alone. -/
theorem stepsAbsorbExactlyTheAcceptedBytes : Obligations.StepsAbsorbExactlyTheAcceptedBytes := by
  intro m s t h noReset noInit noFinal hstep
  have same (none : s.accepts = none) (keeps : Represents m t) : Represents (m ++ s.takenBytes) t := by
    rwa [takenBytes_of_accepts_none none, List.append_nil]
  cases step_effect hstep with
  | core _ _ _ noAccept _ eff => exact same noAccept (h.popTurn.coreStep eff)
  | reset _ resets => rw [noReset] at resets; cases resets
  | refused _ e hs _ _ _ noAccept _ eff => exact same noAccept (eff ▸ (h.served hs).raiseError e)
  | dataIn v hs _ _ _ noAccept _ eff =>
    exact same noAccept (eff ▸ (h.served hs).congr rfl rfl rfl rfl rfl rfl rfl rfl rfl rfl rfl)
  | hostOnly hs _ _ _ noAccept _ eff => exact same noAccept (eff ▸ h.served hs)
  | accepted _ i hs _ _ _ accept _ idle word _ eff =>
    rw [eff, State.takenBytes, accept]
    cases i with
    | nop => simpa [acceptEffect] using h.served hs
    | init => exact absurd accept noInit
    | update n => exact (h.served hs).update idle (wf_update.mp (decode_wf word)).2
    | final => exact absurd accept noFinal

end Sys2Proof.Machine
end

section
/-! FINAL and what follows it (R106, R107, R174): the blocks that end pad(m), and the run from INIT to the digest. -/

namespace Sys2Proof.Machine

/-! ### The blocks that end pad(m) -/

/-- The padding fits in the block that the message ends in (R103, R106). -/
theorem blockCount_of_le {L : Nat} (fits : L % 64 ≤ 55) : blockCount L = L / 64 + 1 := by unfold blockCount; omega

/-- The padding spills into one block more (R103, R106). -/
theorem blockCount_of_ge {L : Nat} (spills : 56 ≤ L % 64) : blockCount L = L / 64 + 2 := by unfold blockCount; omega

section Blocks
variable {m : List Byte} {buf : Vector Byte 64}

/-- Marker and zeros behind the message's last bytes are the next bytes of pad(m), up to its length field
(R101, R106). -/
theorem BufHolds.padMarker (held : BufHolds m (m.length / 64) (m.length % 64) buf) {n : Nat}
    (beforeLength : 64 * (m.length / 64) + n ≤ 64 * blockCount m.length - 8) :
    BufHolds (pad m) (m.length / 64) n (padMarker (m.length % 64) buf) := by
  intro j hj below
  rw [getElem_padMarker, getD_pad _ _ (by omega)]
  have inside : 64 * (m.length / 64) + j < m.length ↔ j < m.length % 64 := by omega
  have marker : 64 * (m.length / 64) + j = m.length ↔ j = m.length % 64 := by omega
  have zeros : 64 * (m.length / 64) + j < 64 * blockCount m.length - 8 := by omega
  simp only [inside, marker, zeros, if_true]
  split_ifs with message
  · exact held j hj message
  all_goals rfl

/-- A block that holds the first 56 bytes of the last block of pad(m) is that block once the length is put in (R106). -/
theorem putLength_eq_blockAt {i : Nat} (last : blockCount m.length = i + 1) (held : BufHolds (pad m) i 56 buf) :
    putLength (BitVec.ofNat 64 (8 * m.length)) buf = blockAt (pad m) i := by
  have count : blockCount m.length = (m.length + 8) / 64 + 1 := rfl
  apply Vector.ext
  intro j hj
  rw [getElem_putLength, getElem_blockAt]
  split_ifs with data
  · exact held j hj data
  · rw [getD_pad _ _ (by omega), if_neg (by omega), if_neg (by omega), if_neg (by omega)]
    congr 1; omega

/-- Zeros are the first 56 bytes of a padding block that the message does not reach (R101, R106). -/
theorem bufHolds_zeroData {i : Nat} (last : blockCount m.length = i + 1) (beyond : m.length < 64 * i) :
    BufHolds (pad m) i 56 (zeroData buf) := by
  intro j hj data
  rw [getElem_zeroData, if_pos data, getD_pad _ _ (by omega), if_neg (by omega), if_neg (by omega), if_pos (by omega)]

end Blocks

/-! ### FINAL on a core that holds m -/

section Final
variable {m : List Byte} {s t : State}

theorem Represents.marked (h : Represents m s) {n : Nat}
    (beforeLength : 64 * (m.length / 64) + n ≤ 64 * blockCount m.length - 8) :
    BufHolds (pad m) (m.length / 64) n (padMarker s.bufcnt.toNat s.buf) := by
  rw [h.count]; exact h.bufHolds.padMarker beforeLength

/-- The block that FINAL completes when the length fits (R106). -/
theorem Represents.lastBlock (h : Represents m s) (fits : s.bufcnt.toNat ≤ 55) :
    putLength s.len (padMarker s.bufcnt.toNat s.buf) = blockAt (pad m) (m.length / 64) := by
  have count := blockCount_of_le (h.count ▸ fits)
  rw [h.bits]
  exact putLength_eq_blockAt count (h.marked (by omega))

/-- The first of the two blocks when the padding spills (R106). -/
theorem Represents.blockBeforeLast (h : Represents m s) (spills : 56 ≤ s.bufcnt.toNat) :
    padMarker s.bufcnt.toNat s.buf = blockAt (pad m) (m.length / 64) := by
  have count := blockCount_of_ge (h.count ▸ spills)
  exact (h.marked (by omega)).eq_blockAt

/-- The second of the two blocks when the padding spills (R106). -/
theorem Represents.spilledBlock (h : Represents m s) (spills : 56 ≤ s.bufcnt.toNat) :
    putLength s.len (zeroData (padMarker s.bufcnt.toNat s.buf)) = blockAt (pad m) (m.length / 64 + 1) := by
  have count := blockCount_of_ge (h.count ▸ spills)
  rw [h.bits]
  exact putLength_eq_blockAt count (bufHolds_zeroData count (by omega))

/-- FINAL LOADs the block of pad(m) that the message ends in (R106). -/
theorem Represents.padFinal_W (h : Represents m s) :
    (padFinal s).W = loadWords (blockAt (pad m) (m.length / 64)) s.W := by
  rcases Nat.lt_or_ge s.bufcnt.toNat 56 with fits | spills
  · have fits := Nat.le_of_lt_succ fits
    rw [padFinal_one fits, ← h.lastBlock fits]
  · rw [padFinal_two spills, ← h.blockBeforeLast spills]

/-- FINAL leaves no block pending, or the last block of pad(m) in BUF (R30, R106). -/
theorem Represents.padFinal_pending (h : Represents m s) :
    (s.bufcnt.toNat ≤ 55 → (padFinal s).pend2 = false ∧ blockCount m.length = m.length / 64 + 1) ∧
    (56 ≤ s.bufcnt.toNat → (padFinal s).pend2 = true ∧ blockCount m.length = m.length / 64 + 2 ∧
      (padFinal s).buf = blockAt (pad m) (m.length / 64 + 1)) := by
  refine ⟨fun fits => ⟨?_, blockCount_of_le (h.count ▸ fits)⟩,
    fun spills => ⟨?_, blockCount_of_ge (h.count ▸ spills), ?_⟩⟩
  · rw [padFinal_one fits]
  · rw [padFinal_two spills]
  · rw [padFinal_two spills, ← h.spilledBlock spills]

/-- An idle core that holds a message accepts FINAL (R170, R174). -/
theorem Represents.exec_final (h : Represents m s) (idle : s.phase = .idle) : exec .final s = .next (padFinal s) :=
  congrArg Host.Outcome.next (checked_of_idle idle true padFinal (.inr h.notDone))

end Final

/-- Settles O55: FINAL is accepted (`Represents.exec_final`), and its blocks are those that end pad(m)
(`Represents.padFinal_W`, `Represents.padFinal_pending`). -/
theorem finalBuildsTheLastBlocksOfPad : Obligations.FinalBuildsTheLastBlocksOfPad := by
  intro m s h idle
  obtain ⟨one, two⟩ := h.padFinal_pending
  rw [← length_blocks_pad] at one two
  exact ⟨padFinal s, h.exec_final idle, h.padFinal_W, one, two⟩

/-! ### The job of FINAL -/

/-- SHA256state(m) is the chain over all the blocks of pad(m) (R163). -/
theorem sha256State_eq_chainValue (m : List Byte) : sha256State m = chainValue (pad m) (blockCount m.length) := by
  rw [sha256State, blocks, length_pad_eq_blocks, Nat.mul_div_cancel_left _ (by decide)]; rfl

/-- The full blocks of m are blocks of pad(m). -/
theorem chainValue_pad (m : List Byte) : chainValue (pad m) (m.length / 64) = chainValue m (m.length / 64) := by
  rw [pad_eq, List.append_assoc, List.append_assoc]
  exact chainValue_append _ _ _ (Nat.mul_div_le _ _)

/-- FINAL was accepted on m, and the job on block `i` of pad(m) is running: the last block, or the one before it, with
the last in BUF (R106, R147). -/
structure Finishing (m : List Byte) (i : Nat) (s : State) : Prop where
  notDone : s.done = false
  final : s.fin = true
  count : s.bufcnt = 0
  bits : s.len = BitVec.ofNat 64 (8 * m.length)
  chain : s.H = chainValue (pad m) i
  job : JobOnBlock (blockAt (pad m) i) s
  last : s.pend2 = false → blockCount m.length = i + 1
  pending : s.pend2 = true → blockCount m.length = i + 2 ∧ s.buf = blockAt (pad m) (i + 1)

/-- FINAL on m has ended: H is the hash state of the whole of pad(m) (R147, R163). -/
structure Finished (m : List Byte) (s : State) : Prop where
  done : s.done = true
  idle : s.phase = .idle
  count : s.bufcnt = 0
  bits : s.len = BitVec.ofNat 64 (8 * m.length)
  hash : s.H = sha256State m

section Finish
variable {m : List Byte} {i : Nat} {s t : State}

/-- FINAL on a core that holds m starts the job on the block that m ends in (R106). -/
theorem Represents.finishing_padFinal (h : Represents m s) (idle : s.phase = .idle) :
    Finishing m (m.length / 64) (padFinal s) := by
  obtain ⟨one, two⟩ := h.padFinal_pending
  have small := s.bufcnt.isLt
  exact {
    notDone := by simpa using h.notDone
    final := by simp
    count := by simp
    bits := by simpa using h.bits
    chain := by rw [padFinal_H, h.chainIdle idle, chainValue_pad]
    job := jobOnBlock_of_loaded (by simp) (by simp) h.padFinal_W (by simp)
    last := fun none => by
      rcases Nat.lt_or_ge s.bufcnt.toNat 56 with fits | spills
      · exact (one (by omega)).2
      · rw [(two spills).1] at none; cases none
    pending := fun some => by
      rcases Nat.lt_or_ge s.bufcnt.toNat 56 with fits | spills
      · rw [(one (by omega)).1] at some; cases some
      · exact (two spills).2 }

/-- Anything that leaves the core's own registers leaves the job of FINAL. -/
theorem Finishing.congr (h : Finishing m i s) (kept : KeptInJob s t) (job : JobOnBlock (blockAt (pad m) i) t) :
    Finishing m i t where
  notDone := kept.done.trans h.notDone
  final := kept.fin.trans h.final
  count := kept.bufcnt.trans h.count
  bits := kept.len.trans h.bits
  chain := kept.H.trans h.chain
  job := job
  last := kept.pend2.symm ▸ h.last
  pending := by rw [kept.pend2, kept.buf]; exact h.pending

/-- The FOLD of the block before the last starts the job on the last, and that of the last ends FINAL (R147). -/
theorem Finishing.foldStep (h : Finishing m i s) (folded : (foldStep s).H = compress s.H (blockAt (pad m) i)) :
    Finishing m (i + 1) (foldStep s) ∨ Finished m (foldStep s) := by
  have chain : (Machine.foldStep s).H = chainValue (pad m) (i + 1) := by rw [folded, h.chain, ← chainValue_succ]
  cases pending : s.pend2 with
  | true =>
    obtain ⟨blocks, buf⟩ := h.pending pending
    left
    exact {
      notDone := by simp [h.notDone, pending]
      final := by simp [h.final, pending]
      count := by simpa using h.count
      bits := by simpa using h.bits
      chain := chain
      job := by
        rcases foldStep_cases s with ⟨-, e⟩ | ⟨none, -⟩ | ⟨none, -⟩
        · rw [e]; exact jobOnBlock_of_loaded (W0 := s.W) rfl rfl (by rw [load_W, buf]) rfl
        all_goals rw [pending] at none; cases none
      last := fun _ => blocks
      pending := by simp }
  | false =>
    right
    exact {
      done := by simp [h.final, pending]
      idle := by simp [foldStep_phase, pending]
      count := by simpa using h.count
      bits := by simpa using h.bits
      hash := by rw [chain, sha256State_eq_chainValue, h.last pending] }

/-- The core's turn takes FINAL's job further, or ends it (R147). -/
theorem Finishing.coreStep (h : Finishing m i s) (turn : coreStep s = .next t) :
    (∃ k, Finishing m k t) ∨ Finished m t := by
  rcases h.job.coreStep_cases turn with ⟨kept, job⟩ | ⟨rfl, folded⟩
  · exact .inl ⟨i, h.congr kept job⟩
  · exact (h.foldStep folded).imp_left fun next => ⟨i + 1, next⟩

/-- Any step but a reset takes FINAL's job further, ends it, or leaves it alone: a busy core accepts nothing (R203). -/
theorem Finishing.step (h : Finishing m i s) (noReset : s.resets = false) (hstep : step s = .next t) :
    (∃ k, Finishing m k t) ∨ Finished m t := by
  have popped : Finishing m i s.popTurn := h.congr ⟨rfl, rfl, rfl, rfl, rfl, rfl, rfl⟩ (h.job.congr rfl rfl rfl rfl rfl)
  have aside (kept : KeptInJob s t) (job : JobOnBlock (blockAt (pad m) i) t) :
      (∃ k, Finishing m k t) ∨ Finished m t := .inl ⟨i, h.congr kept job⟩
  cases step_effect hstep with
  | core _ _ _ _ _ eff => exact popped.coreStep eff
  | reset _ resets => rw [noReset] at resets; cases resets
  | accepted _ _ _ _ _ _ _ _ idle => exact absurd idle h.job.running
  | refused _ _ _ _ _ _ _ _ eff =>
    subst eff; exact aside (by constructor <;> simp) (by apply h.job.congr <;> simp)
  | dataIn _ _ _ _ _ _ _ eff =>
    subst eff; exact aside ⟨rfl, rfl, rfl, rfl, rfl, rfl, rfl⟩ (h.job.congr rfl rfl rfl rfl rfl)
  | hostOnly _ _ _ _ _ _ eff =>
    subst eff; exact aside ⟨rfl, rfl, rfl, rfl, rfl, rfl, rfl⟩ (h.job.congr rfl rfl rfl rfl rfl)

/-- A run that takes no reset and no step after FINAL's job is in the job or at its end. -/
theorem Finishing.runs (h : Finishing m i s) (run : Runs (fun x => x.resets = false ∧ x.phase ≠ .idle) s t) :
    (∃ k, Finishing m k t) ∨ Finished m t := by
  induction run with
  | refl => exact .inl ⟨i, h⟩
  | tail _ here next ih =>
    rcases ih with ⟨k, job⟩ | ended
    · exact job.step here.1 next
    · exact absurd ended.idle here.2

end Finish

/-! ### The whole run -/

/-- After INIT an idle core holds the empty message (R172). -/
theorem initMessage_represents {s : State} (idle : s.phase = .idle) : Represents [] (initMessage s) where
  notDone := by simp
  notFinal := by simp
  noPending := by simp
  bits := by simp
  count := by simp
  held := fun _ _ none => absurd none (Nat.not_lt_zero _)
  chainIdle := fun _ => by rw [initMessage_H]; rfl
  chainBusy := fun running => absurd idle (by simpa using running)

/-- A step that accepts a command takes effect on an idle core, with nothing but the turns and the host moved on. -/
theorem step_of_accepts {s t : State} {i : Instr} (accept : s.accepts = some i) (hstep : step s = .next t) :
    s.phase = .idle ∧ ∃ hs, t = acceptEffect i (s.popTurn.setHost hs) := by
  have accepted : s.accepts ≠ none := by simp [accept]
  cases step_effect hstep with
  | accepted _ j hs _ _ _ accept' _ idle _ _ eff =>
    cases accept.symm.trans accept'
    exact ⟨idle, hs, eff⟩
  | core _ _ _ noAccept => exact absurd noAccept accepted
  | reset _ _ _ noAccept => exact absurd noAccept accepted
  | refused _ _ _ _ _ _ noAccept => exact absurd noAccept accepted
  | dataIn _ _ _ _ _ noAccept => exact absurd noAccept accepted
  | hostOnly _ _ _ _ noAccept => exact absurd noAccept accepted

/-- The bytes accepted in a run from the empty message are the message held at its end (R107). -/
theorem Represents.absorbs {m : List Byte} {s t : State} (h : Represents [] s) (run : Absorbs s m t) :
    Represents m t := by
  induction run with
  | refl => exact h
  | tail _ noReset noInit noFinal next ih =>
    exact stepsAbsorbExactlyTheAcceptedBytes _ _ _ ih noReset noInit noFinal next

/-- Settles O57: INIT leaves the empty message (`initMessage_represents`), the run up to FINAL makes it m
(`Represents.absorbs`), and FINAL's job ends with the hash state of pad(m) (`Finishing.runs`). -/
theorem anyRunFromInitToFinalGivesTheDigest : Obligations.AnyRunFromInitToFinalGivesTheDigest := by
  intro m s s0 s1 s2 u init stepInit run final stepFinal job idle
  obtain ⟨idle0, hs0, rfl⟩ := step_of_accepts init stepInit
  obtain ⟨idle1, hs1, rfl⟩ := step_of_accepts final stepFinal
  have holds : Represents m s1 := (initMessage_represents (s := s.popTurn.setHost hs0) idle0).absorbs run
  have started := (holds.served hs1).finishing_padFinal idle1
  rcases started.runs job with ⟨k, running⟩ | ended
  · exact absurd idle running.job.running
  · exact ⟨ended.hash, ended.done, ended.count, ended.bits⟩

end Sys2Proof.Machine
end

section
/-! The schedule expander: one SCHED step, the 48 of a job, and the sliding window (R123, R124, R125). -/

namespace Sys2Proof.Machine

/-! ### One SCHED step (R124) -/

theorem coreStep_sched {s : State} (phase : s.phase = .sched) (low : 16 ≤ s.t.toNat) :
    coreStep s = .next (schedStep s) := by
  unfold coreStep; rw [phase]; exact if_pos low

/-- SCHED writes W, PHASE and T only. -/
theorem schedStep_frame (s : State) : schedStep s =
    { s with W := (schedStep s).W, phase := (schedStep s).phase, t := (schedStep s).t } := by
  unfold schedStep; split <;> rfl

/-- SCHED(t) writes W[t] only, by the recurrence. -/
theorem getElem_schedStep_W (s : State) (j : Nat) (h : j < 64) : (schedStep s).W[j] =
    if j = s.t.toNat then schedWord s.W s.t.toNat s.t.isLt else s.W[j] := by
  have write : (schedStep s).W = s.W.set s.t.toNat (schedWord s.W s.t.toNat s.t.isLt) s.t.isLt := by
    unfold schedStep; split <;> rfl
  simp only [write, Vector.getElem_set, eq_comm (a := j)]

/-- Settles O35: the core's turn is SCHED (`coreStep_sched`), which writes PHASE, T (`schedStep_frame`)
and one word of W (`getElem_schedStep_W`). -/
theorem schedWritesOneWord : Obligations.SchedWritesOneWord := by
  intro s phase low
  refine ⟨schedStep s, coreStep_sched phase low, ?_, getElem_schedStep_W s⟩
  rw [← phase, ← schedStep_phase, ← schedStep_t]
  exact schedStep_frame s

/-! ### The SCHED steps of a job (R124) -/

/-- `s` after the first `k` of the 48 SCHED steps. T has 6 bits, so that it is 0 again at `k = 48`. -/
def State.afterSched (s : State) (k : Nat) : State :=
  { s with W := extendWords k s.W, phase := if k = 48 then .round else .sched, t := BitVec.ofNat 6 (16 + k) }

theorem State.afterSched_zero {s : State} (phase : s.phase = .sched) (index : s.t = 16) : s.afterSched 0 = s := by
  change { s with phase := .sched, t := 16 } = s
  rw [← phase, ← index]

theorem coreStep_afterSched (s : State) {k : Nat} (more : k < 48) :
    coreStep (s.afterSched k) = .next (s.afterSched (k + 1)) := by
  have phase : (s.afterSched k).phase = .sched := if_neg (by omega)
  have index : (s.afterSched k).t.toNat = 16 + k := by
    simp only [State.afterSched, BitVec.toNat_ofNat]; omega
  have last : (s.afterSched k).t = 63 ↔ k + 1 = 48 := by
    rw [BitVec.toNat_eq, index, show (63 : BitVec 6).toNat = 63 from rfl]; omega
  have words : (schedStep (s.afterSched k)).W = extendWords (k + 1) s.W := schedStep_W index rfl
  have next : (if (s.afterSched k).t = 63 then 0 else (s.afterSched k).t + 1) = BitVec.ofNat 6 (16 + (k + 1)) := by
    split
    · obtain rfl : k = 47 := by have := last.mp ‹_›; omega
      rfl
    · rw [State.afterSched, ← Nat.add_assoc, BitVec.ofNat_add (16 + k)]; rfl
  rw [coreStep_sched phase (by omega), schedStep_frame, words, schedStep_phase, schedStep_t, next]
  simp only [last, phase]; rfl

theorem coreSteps_afterSched {s : State} (phase : s.phase = .sched) (index : s.t = 16) {k : Nat} (h : k ≤ 48) :
    coreSteps k s = .next (s.afterSched k) := by
  induction k with
  | zero => rw [State.afterSched_zero phase index, coreSteps]
  | succ k ih => rw [coreSteps_succ, ih (by omega), andThen_next, coreStep_afterSched s h]

/-- Settles O38, by induction on the steps: they extend the loaded words (`coreSteps_afterSched`), and the extension does
not depend on what W held before the LOAD (`extendWords_load`). -/
theorem fortyEightStepsGiveTheSchedule : Obligations.FortyEightStepsGiveTheSchedule := by
  intro s B W0 phase index words
  rw [coreSteps_afterSched phase index (le_refl 48), State.afterSched, words, extendWords_load]
  rfl

/-! ### The words of the schedule, and the sliding window (R123, R125) -/

/-- A word below 16 + k keeps its value in every further extension. -/
theorem getElem_extendWords_of_le {k n : Nat} (h : k ≤ n) (W : Vector Word 64) (j : Nat) (hj : j < 64)
    (old : j < 16 + k) : (extendWords n W)[j] = (extendWords k W)[j] := by
  induction n, h using Nat.le_induction with
  | base => rfl
  | succ n h ih => rw [getElem_extendWords_old _ _ _ _ (by omega), ih]

theorem getElem_scheduleOf_low (B : Vector Byte 64) (j : Nat) (h : j < 16) :
    (scheduleOf B)[j] = blockWord B j h := by
  rw [scheduleOf, getElem_extendWords_low _ _ _ h, getElem_loadWords, dif_pos h]

/-- The finished schedule meets the recurrence of R123, at t = i + 16. -/
theorem getElem_scheduleOf_add_16 (B : Vector Byte 64) (i : Nat) (h : i < 48) :
    (scheduleOf B)[i + 16] = smallSigma1 (scheduleOf B)[i + 14] + (scheduleOf B)[i + 9]
      + smallSigma0 (scheduleOf B)[i + 1] + (scheduleOf B)[i] := by
  unfold scheduleOf
  generalize loadWords B (Vector.replicate 64 0) = L
  have settled : ∀ (j : Nat) (hj : j < i + 16), (extendWords 48 L)[j] = (extendWords i L)[j] := fun j hj =>
    getElem_extendWords_of_le (by omega) L j (by omega) (by omega)
  rw [settled (i + 14) (by omega), settled (i + 9) (by omega), settled (i + 1) (by omega), settled i (by omega)]
  calc (extendWords 48 L)[i + 16]
      = (extendWords (i + 1) L)[i + 16] := getElem_extendWords_of_le (by omega) L _ (by omega) (by omega)
    _ = schedWord (extendWords i L) (i + 16) (by omega) := by
        simpa only [Nat.add_comm 16 i] using getElem_extendWords_new i L (by omega)

theorem getElem_slideWindow (v : Vector Word 16) (j : Nat) (h : j < 16) : (slideWindow v)[j] =
    if h' : j < 15 then v[j + 1] else smallSigma1 v[14] + v[9] + smallSigma0 v[1] + v[0] := by
  simp only [slideWindow, Vector.getElem_ofFn]

/-- Settles O43, by induction on the moves: a move shifts 15 words down, and its new word is the schedule's next one by
the recurrence (`getElem_scheduleOf_add_16`). -/
theorem slidingWindowIsTheSchedule : Obligations.SlidingWindowIsTheSchedule := by
  intro B k
  induction k with
  | zero =>
    intro _ j hj
    simp only [windowAfter, Vector.getElem_ofFn, Nat.zero_add, getElem_scheduleOf_low B j hj]
  | succ k ih =>
    intro hk j hj
    have window := ih (by omega)
    rw [windowAfter, getElem_slideWindow]
    split
    · rw [window]; congr 1; omega
    · obtain rfl : j = 15 := by omega
      rw [window, window, window, window]
      exact (getElem_scheduleOf_add_16 B k hk).symm

end Sys2Proof.Machine
end

section
/-! The compression datapath and its sequencing: one ROUND step, the 64 of a job, FOLD, and the whole job (R145 to R148). -/

namespace Sys2Proof.Machine

/-! ### One ROUND step (R145, R146) -/

theorem coreStep_round {s : State} (phase : s.phase = .round) : coreStep s = .next (roundStep s) := by
  unfold coreStep; rw [phase]

/-- ROUND writes the working registers, PHASE and T only. -/
theorem roundStep_frame (s : State) : roundStep s =
    { s with work := (roundStep s).work, phase := (roundStep s).phase, t := (roundStep s).t } := by
  unfold roundStep; split <;> rfl

/-- ROUND(t) moves the working registers by the round function, on K[t] and W[t] (R145). -/
theorem roundStep_work_eq_roundFn (s : State) : (roundStep s).work =
    roundFn (Config.K[s.t.toNat]'s.t.isLt) (s.W[s.t.toNat]'s.t.isLt) s.work := by
  unfold roundStep; split <;> rfl

/-- Settles O36: the core's turn is ROUND, which writes the working registers (`roundStep_work_eq_roundFn`), PHASE and T
(`roundStep_frame`); `roundFn` reads the old registers only. -/
theorem roundMovesTheWorkingRegisters : Obligations.RoundMovesTheWorkingRegisters := by
  intro s phase
  rw [coreStep_round phase, roundStep_frame, roundStep_work_eq_roundFn, roundStep_phase, roundStep_t, phase]
  rfl

/-! ### FOLD (R147) -/

theorem coreStep_fold {s : State} (phase : s.phase = .fold) : coreStep s = .next (foldStep s) := by
  unfold coreStep; rw [phase]

/-- A FOLD with a second block pending LOADs it from BUF with the H just written (R13, R147). -/
theorem foldStep_of_pend2 {s : State} (pending : s.pend2 = true) :
    foldStep s = load { s with H := foldHash s.H s.work, pend2 := false } :=
  if_pos pending

/-- LOAD takes word `i` below 16 from four bytes of BUF, most significant first (R12, R120). -/
theorem getElem_load_W_low (s : State) (i : Nat) (h : i < 16) :
    (load s).W[i] = s.buf[4 * i] ++ s.buf[4 * i + 1] ++ s.buf[4 * i + 2] ++ s.buf[4 * i + 3] := by
  simp only [load_W, getElem_loadWords, dif_pos h, blockWord, be32_append]

/-- LOAD keeps the words from 16 on (R144). -/
theorem getElem_load_W_high (s : State) (i : Nat) (h : i < 64) (high : 16 ≤ i) : (load s).W[i] = s.W[i] := by
  simp only [load_W, getElem_loadWords, dif_neg (Nat.not_lt.mpr high)]

/-- Settles O37: the core's turn is FOLD, and its three cases are those of `foldStep_cases`; the LOAD of the first is
read word by word. -/
theorem foldAddsAndSequences : Obligations.FoldAddsAndSequences := by
  intro s phase
  rw [coreStep_fold phase]
  refine ⟨fun pending => ?_, fun single last => ?_, fun single more => ?_⟩
  · rw [foldStep_of_pend2 pending]
    exact ⟨_, rfl, rfl, getElem_load_W_low _, getElem_load_W_high _⟩
  · rcases foldStep_cases s with ⟨pending, -⟩ | ⟨-, -, ended⟩ | ⟨-, more, -⟩
    · simp [single] at pending
    · rw [ended]; rfl
    · simp [last] at more
  · rcases foldStep_cases s with ⟨pending, -⟩ | ⟨-, last, -⟩ | ⟨-, -, ended⟩
    · simp [single] at pending
    · simp [more] at last
    · rw [ended]; rfl

/-! ### The ROUND steps of a job (R146) -/

/-- `s` after the first `k` of the 64 ROUND steps. The last of them keeps T at 63. -/
def State.afterRounds (s : State) (k : Nat) : State :=
  { s with work := roundsFrom s.W k s.work, phase := if k = 64 then .fold else .round, t := BitVec.ofNat 6 (min k 63) }

theorem State.afterRounds_W (s : State) (k : Nat) : (s.afterRounds k).W = s.W := rfl

theorem State.afterRounds_work (s : State) (k : Nat) : (s.afterRounds k).work = roundsFrom s.W k s.work := rfl

theorem State.afterSched_W (s : State) (k : Nat) : (s.afterSched k).W = extendWords k s.W := rfl

theorem State.afterSched_work (s : State) (k : Nat) : (s.afterSched k).work = s.work := rfl

theorem State.afterRounds_zero {s : State} (phase : s.phase = .round) (index : s.t = 0) : s.afterRounds 0 = s := by
  change { s with phase := .round, t := 0 } = s
  rw [← phase, ← index]

theorem coreStep_afterRounds (s : State) {k : Nat} (more : k < 64) :
    coreStep (s.afterRounds k) = .next (s.afterRounds (k + 1)) := by
  have phase : (s.afterRounds k).phase = .round := if_neg (by omega)
  have index : (s.afterRounds k).t.toNat = k := by
    simp only [State.afterRounds, BitVec.toNat_ofNat]; omega
  have last : (s.afterRounds k).t = 63 ↔ k + 1 = 64 := by
    rw [BitVec.toNat_eq, index, show (63 : BitVec 6).toNat = 63 from rfl]; omega
  have rounds : (s.afterRounds k).work = roundsFrom (s.afterRounds k).W (s.afterRounds k).t.toNat s.work := by
    rw [index]; rfl
  have work : (roundStep (s.afterRounds k)).work = roundsFrom s.W (k + 1) s.work := by
    rw [roundStep_work rounds, index]; rfl
  have next : (roundStep (s.afterRounds k)).t = BitVec.ofNat 6 (min (k + 1) 63) := by
    apply BitVec.eq_of_toNat_eq
    rw [roundStep_t, BitVec.toNat_ofNat]
    split
    · have := last.mp ‹_›; omega
    · have := mt last.mpr ‹_›
      rw [toNat_add_one_of_ne_63 ‹_›]; omega
  rw [coreStep_round phase, roundStep_frame, work, roundStep_phase, next]
  simp only [last, phase]; rfl

theorem coreSteps_afterRounds {s : State} (phase : s.phase = .round) (index : s.t = 0) {k : Nat} (h : k ≤ 64) :
    coreSteps k s = .next (s.afterRounds k) := by
  induction k with
  | zero => rw [State.afterRounds_zero phase index, coreSteps]
  | succ k ih => rw [coreSteps_succ, ih (by omega), andThen_next, coreStep_afterRounds s h]

/-! ### The whole job (R148) -/

/-- The 48 SCHED steps, the 64 ROUND steps and the FOLD of a job. -/
theorem coreSteps_job {s : State} (phase : s.phase = .sched) (index : s.t = 16) :
    coreSteps 113 s = .next (foldStep ((s.afterSched 48).afterRounds 64)) := by
  calc coreSteps (48 + (64 + 1)) s
      = andThen (coreSteps 48 s) (coreSteps (64 + 1)) := coreSteps_add 48 (64 + 1) s
    _ = coreSteps (64 + 1) (s.afterSched 48) := by rw [coreSteps_afterSched phase index (le_refl 48), andThen_next]
    _ = andThen (coreSteps 64 (s.afterSched 48)) coreStep := coreSteps_succ 64 _
    _ = coreStep ((s.afterSched 48).afterRounds 64) := by
        rw [coreSteps_afterRounds rfl rfl (le_refl 64), andThen_next]
    _ = .next (foldStep ((s.afterSched 48).afterRounds 64)) := coreStep_fold rfl

theorem keptInJob_afterRounds (s : State) (j k : Nat) : KeptInJob s ((s.afterSched j).afterRounds k) :=
  ⟨rfl, rfl, rfl, rfl, rfl, rfl, rfl⟩

/-- A job started by LOAD ends with a FOLD, from a state that still holds what the job found and has its rounds done. -/
theorem coreSteps_job_endsInFold {s : State} {B : Vector Byte 64} {W0 : Vector Word 64} (phase : s.phase = .sched)
    (index : s.t = 16) (words : s.W = loadWords B W0) (work : s.work = Working.ofHash s.H) :
    ∃ u, coreSteps 113 s = .next (foldStep u) ∧ u.phase = .fold ∧ JobOnBlock B u ∧ KeptInJob s u := by
  have kept := keptInJob_afterRounds s 48 64
  have schedule : (s.afterSched 48).W = scheduleOf B := by
    rw [State.afterSched_W, words, extendWords_load]
  refine ⟨_, coreSteps_job phase index, rfl, (jobOnBlock_fold rfl).mpr ⟨?_, ?_⟩, kept⟩
  · rw [State.afterRounds_W, schedule]
  · rw [State.afterRounds_work, schedule, State.afterSched_work, work, kept.H]

/-- Settles O39: the job's last step is a FOLD (`coreSteps_job_endsInFold`), which writes the compressed hash
(`JobOnBlock.foldStep_H`). Without PEND2 it ends the job; with it, it is the LOAD of `foldStep_of_pend2`. -/
theorem jobFoldsTheCompressedBlock : Obligations.JobFoldsTheCompressedBlock := by
  intro s B W0 phase index words work
  obtain ⟨u, run, atFold, job, kept⟩ := coreSteps_job_endsInFold phase index words work
  have hash : (foldStep u).H = compress s.H B := by rw [job.foldStep_H atFold, kept.H]
  refine ⟨foldStep u, run, hash, by rw [foldStep_buf, kept.buf], by rw [foldStep_len, kept.len],
    by rw [foldStep_bufcnt, kept.bufcnt], fun single => ?_, fun pending => ?_⟩
  · simp [foldStep_phase, foldStep_t, kept.pend2, kept.fin, kept.done, single]
  · rw [foldStep_of_pend2 (kept.pend2.trans pending)] at hash ⊢
    exact ⟨rfl, rfl, rfl, kept.fin, kept.done, congrArg Working.ofHash hash, u.W, by rw [← kept.buf]; rfl⟩

end Sys2Proof.Machine
end

section
/-! The digest's bytes and its hex text (R160 to R162): eight words, each rendered as a list of the same length. -/

namespace Sys2Proof.Machine

/-! ### Words rendered one after another -/

section Rendering
variable {α β : Type} {f : α → List β} {n : Nat} (size : ∀ x, (f x).length = n)
include size

theorem length_flatMap_of_size (xs : List α) : (xs.flatMap f).length = n * xs.length := by
  induction xs with
  | nil => rfl
  | cons x xs ih => rw [List.flatMap_cons, List.length_append, size, ih, List.length_cons, Nat.mul_succ, Nat.add_comm]

/-- Place n·i + k of the renderings is place k of the one of element i. -/
theorem getElem?_flatMap_of_size {xs : List α} {i k : Nat} (hi : i < xs.length) (hk : k < n) :
    (xs.flatMap f)[n * i + k]? = (f xs[i])[k]? := by
  induction xs generalizing i with
  | nil => exact absurd hi (Nat.not_lt_zero i)
  | cons x xs ih =>
    rw [List.flatMap_cons]
    cases i with
    | zero =>
      rw [Nat.mul_zero, Nat.zero_add, List.getElem?_append_left ((size x).symm ▸ hk), List.getElem_cons_zero]
    | succ i =>
      have past : n * (i + 1) + k - (f x).length = n * i + k := by rw [size, Nat.mul_succ]; omega
      have beyond : (f x).length ≤ n * (i + 1) + k := by rw [size, Nat.mul_succ]; omega
      rw [List.getElem?_append_right beyond, past, ih (Nat.lt_of_succ_lt_succ hi), List.getElem_cons_succ]

end Rendering

/-! ### digest(H) (R160) -/

theorem length_be32Bytes (w : Word) : (be32Bytes w).length = 4 := rfl

theorem getElem?_be32Bytes (w : Word) {j : Nat} (hj : j < 4) : (be32Bytes w)[j]? = some (wordByte w j) := by
  match j, hj with
  | 0, _ | 1, _ | 2, _ | 3, _ => rfl

/-- Settles O51: byte j of the rendering of H[i], each rendering being 4 bytes long. -/
theorem digestBytesAreBigEndian : Obligations.DigestBytesAreBigEndian := by
  refine fun H => ⟨?length, fun i j hi hj => ?bytes⟩
  case length => rw [digestBytes, length_flatMap_of_size length_be32Bytes, Vector.length_toList]
  case bytes =>
    rw [digestBytes, getElem?_flatMap_of_size length_be32Bytes (by rwa [Vector.length_toList]) hj,
      getElem?_be32Bytes _ hj, Vector.getElem_toList, wordByte]

/-! ### hex(H) and the short hash (R161, R162) -/

/-- The string from which R161 takes its digits. -/
def hexDigits : List Char := ['0', '1', '2', '3', '4', '5', '6', '7', '8', '9', 'a', 'b', 'c', 'd', 'e', 'f']

theorem getElem?_hexDigits (n : BitVec 4) : hexDigits[n.toNat]? = some (hexDigit n) := by
  have inside : n.toNat < hexDigits.length := n.isLt
  rw [hexDigit, List.getElem?_eq_getElem inside]
  exact congrArg some (List.getElem_eq_getD '0')

theorem length_hexWord (w : Word) : (hexWord w).length = 8 := by rw [hexWord, List.length_map, List.length_range]

theorem getElem?_hexWord (w : Word) {k : Nat} (hk : k < 8) :
    (hexWord w)[k]? = some (hexDigit (w.extractLsb' (28 - 4 * k) 4)) := by
  rw [hexWord, List.getElem?_map, List.getElem?_range hk, Option.map_some]

theorem mem_hexDigits_of_mem_hexWord {w : Word} {c : Char} (h : c ∈ hexWord w) : c ∈ hexDigits := by
  obtain ⟨k, -, rfl⟩ := List.mem_map.mp h
  exact List.mem_of_getElem? (getElem?_hexDigits _)

theorem mem_hexDigits_of_mem_hexDigest {H : Vector Word 8} {c : Char} (h : c ∈ hexDigest H) : c ∈ hexDigits := by
  obtain ⟨w, -, hc⟩ := List.mem_flatMap.mp h
  exact mem_hexDigits_of_mem_hexWord hc

theorem getElem?_hexDigest (H : Vector Word 8) {i k : Nat} (hi : i < 8) (hk : k < 8) :
    (hexDigest H)[8 * i + k]? = (hexWord H[i])[k]? := by
  rw [hexDigest, getElem?_flatMap_of_size length_hexWord (by rwa [Vector.length_toList]) hk, Vector.getElem_toList]

/-- The first 8 characters of hex(H) are those of its word 0 (R162). -/
theorem shortHash_eq_hexWord (H : Vector Word 8) : shortHash H = hexWord H[0] := by
  apply List.ext_getElem?
  intro k
  rw [shortHash, List.getElem?_take]
  split_ifs with hk
  · simpa using getElem?_hexDigest H (i := 0) (by decide) hk
  · exact (List.getElem?_eq_none (by rw [length_hexWord]; omega)).symm

/-- Settles O52: the characters are those of the words' renderings (`getElem?_hexDigest`), each a digit taken from
`hexDigits`, and those of word 0 are the short hash (`shortHash_eq_hexWord`). -/
theorem hexTextHasSixtyFourDigits : Obligations.HexTextHasSixtyFourDigits := by
  refine fun H => ⟨?length, fun c => mem_hexDigits_of_mem_hexDigest, fun i k hi hk => ?digits, rfl,
    shortHash_eq_hexWord H⟩
  case length => rw [hexDigest, length_flatMap_of_size length_hexWord, Vector.length_toList]
  case digits => rw [getElem?_hexDigest H hi hk, getElem?_hexWord _ hk]; exact (getElem?_hexDigits _).symm

end Sys2Proof.Machine
end

section
/-! What the commands do (45_commands.md R170 to R178): an accept as one of two outcomes, UPDATE and FINAL byte by byte,
and what the checks let through. -/

namespace Sys2Proof.Machine

/-! ### A command runs or is refused (R170, R206) -/

/-- A BUSY error in the record, as R203 writes it. -/
theorem raiseError_busy (s : State) :
    raiseError .busy s = { s with err := true, errcode := if s.err then s.errcode else 1 } := raiseError_eq .busy s

theorem raiseError_illegal (s : State) :
    raiseError .illegal s = { s with err := true, errcode := if s.err then s.errcode else 2 } := raiseError_eq .illegal s

theorem raiseError_seq (s : State) :
    raiseError .seq s = { s with err := true, errcode := if s.err then s.errcode else 3 } := raiseError_eq .seq s

/-- Whether a command needs an unfinished message: the `needsOpen` of its checks (R205). -/
def needsOpenMessage : Instr → Bool
  | .nop | .init => false
  | .update _ | .final => true

/-- A command that is one runs under its checks (R170). -/
theorem exec_of_wf {i : Instr} (wf : WellFormed i) (s : State) :
    exec i s = .next (checked (needsOpenMessage i) (acceptEffect i) s) := by
  cases i with
  | update n => exact execUpdate_wf wf s
  | _ => rfl

/-- Only a command that is one answers a next state (R78). -/
theorem wf_of_exec {i : Instr} {s t : State} (h : exec i s = .next t) : WellFormed i := by
  cases i with
  | update n =>
    by_contra notWf
    rw [show exec (.update n) s = .refused .countOutOfRange from if_neg notWf] at h
    cases h
  | _ => rfl

theorem exec_of_busy {i : Instr} {s : State} (wf : WellFormed i) (running : s.phase ≠ .idle) :
    exec i s = .next (raiseError .busy s) := by
  rw [exec_of_wf wf, checked_of_busy running]

/-- An idle core with an open message runs every command (R170). -/
theorem exec_of_idle {i : Instr} {s : State} (wf : WellFormed i) (idle : s.phase = .idle)
    (opened : needsOpenMessage i = false ∨ s.done = false) : exec i s = .next (acceptEffect i s) := by
  rw [exec_of_wf wf, checked_of_idle idle _ _ opened]

/-- A command that needs an open message is refused with SEQ on an idle core that has none (R205). -/
theorem exec_of_needsOpenMessage {i : Instr} {s : State} (wf : WellFormed i) (needs : needsOpenMessage i = true)
    (idle : s.phase = .idle) :
    exec i s = if s.done = true then .next (raiseError .seq s) else .next (acceptEffect i s) := by
  split
  case isTrue done => rw [exec_of_wf wf, needs, checked_of_done idle done]
  case isFalse opened => exact exec_of_idle wf idle (.inr (by simpa using opened))

/-- All that a command can do: record an error, or take its effect (R170). -/
theorem exec_cases {i : Instr} {s t : State} (h : exec i s = .next t) :
    (∃ e, t = raiseError e s) ∨ t = acceptEffect i s := by
  rw [exec_of_wf (wf_of_exec h)] at h
  cases h
  rcases checked_cases (needsOpenMessage i) (acceptEffect i) s with ⟨-, e⟩ | ⟨-, -, -, e⟩ | ⟨-, -, e⟩
  · exact .inl ⟨_, e⟩
  · exact .inl ⟨_, e⟩
  · exact .inr e

/-- Settles O6: NOP's effect is none (`acceptEffect`), under the BUSY check alone. -/
theorem nopChangesNothing : Obligations.NopChangesNothing := by
  refine ⟨rfl, fun s => ⟨fun idle => exec_of_idle rfl idle (.inl rfl), fun running => ?_⟩⟩
  rw [exec_of_busy rfl running, raiseError_busy]

/-- Settles O7: INIT's effect is `initMessage`, under the BUSY check alone. -/
theorem initStartsANewMessage : Obligations.InitStartsANewMessage := by
  refine ⟨rfl, fun s => ⟨fun idle => exec_of_idle rfl idle (.inl rfl), fun running => ?_⟩⟩
  rw [exec_of_busy rfl running, raiseError_busy]

/-- Settles O15: a busy core refuses whatever the word is; an idle one refuses what is no command, and runs a command
unless it needs an open message and there is none. The core's turn leaves the record (`coreStep_keeps`). -/
theorem checksComeInAFixedOrder : Obligations.ChecksComeInAFixedOrder := by
  refine ⟨fun w s => ?accept, fun s t turn => ?core⟩
  case core =>
    obtain ⟨-, -, err, errcode⟩ := coreStep_keeps turn
    exact ⟨err, errcode⟩
  case accept =>
    change accept w s = _
    rw [← raiseError_busy, ← raiseError_illegal, ← raiseError_seq]
    cases word : decode w with
    | illegal why =>
      rw [accept_illegal word]
      split
      case isTrue running => rw [refuseIllegal, checked_of_busy running]
      case isFalse idle => rw [refuseIllegal, checked_of_idle (not_not.mp idle) _ _ (.inl rfl)]
    | legal i =>
      have wf := decode_wf word
      rw [accept_legal word]
      split
      case isTrue running => exact exec_of_busy wf running
      case isFalse idle =>
        have idle := not_not.mp idle
        cases i with
        | nop => exact exec_of_idle wf idle (.inl rfl)
        | init => exact exec_of_idle wf idle (.inl rfl)
        | update n => exact exec_of_needsOpenMessage wf rfl idle
        | final => exact exec_of_needsOpenMessage wf rfl idle

/-! ### What a command leaves (R170 to R174) -/

theorem absorbUpdate_W_high (n : Nat) (s : State) (k : Nat) (h : k < 64) (high : 16 ≤ k) :
    (absorbUpdate n s).W[k] = s.W[k] := absorbBytes_W_high _ _ _ k h high

/-- Settles O12: an error record touches none of these fields, and each command's effect by its own lemmas. -/
theorem commandsLeaveTheRest : Obligations.CommandsLeaveTheRest := by
  intro i s t h
  rcases exec_cases h with ⟨e, rfl⟩ | rfl
  · simp
  · cases i with
    | nop => simp [acceptEffect]
    | init => simp [acceptEffect]
    | update n =>
      simp only [acceptEffect, absorbUpdate_dataIn]
      simpa using absorbUpdate_W_high n s
    | final => simpa [acceptEffect] using padFinal_W_high s

/-! ### UPDATE byte by byte (R57, R173) -/

/-- Settles O8: UPDATE's bytes are written from BUFCNT on (`absorbUpdate_open`, `getElem_writeBytes`). -/
theorem updateBelowABlockStoresItsBytes : Obligations.UpdateBelowABlockStoresItsBytes := by
  intro n s low high idle opened room
  refine ⟨absorbUpdate n s, exec_of_idle (wf_update.mpr ⟨low, high⟩) idle (.inr opened), ?_, fun j h => ?_⟩
  · rw [absorbUpdate_open room, BitVec.ofNat_add, BitVec.ofNat_toNat, BitVec.setWidth_eq]
  · rw [absorbUpdate_open room, getElem_writeBytes, length_updateBytes]
    split
    · exact getD_updateBytes n s.dataIn _ (by omega)
    · rfl

/-- The bytes of UPDATE are the bytes of DATA_IN from the top (R57). -/
theorem getD_updateBytes_eq_extractLsb' {n j : Nat} (w : Word) (h : j < n) :
    (updateBytes n w).getD j 0 = w.extractLsb' (24 - 8 * j) 8 := getD_updateBytes n w j h

/-- The block that UPDATE completes: BUF up to BUFCNT, and the bytes of DATA_IN from there on (R173). -/
def filledBlock (s : State) : Vector Byte 64 :=
  Vector.ofFn fun j : Fin 64 =>
    if j.val < s.bufcnt.toNat then s.buf[j.val] else s.dataIn.extractLsb' (24 - 8 * (j.val - s.bufcnt.toNat)) 8

theorem getElem_filledBlock (s : State) (j : Nat) (h : j < 64) : (filledBlock s)[j] =
    if j < s.bufcnt.toNat then s.buf[j] else s.dataIn.extractLsb' (24 - 8 * (j - s.bufcnt.toNat)) 8 := by
  simp only [filledBlock, Vector.getElem_ofFn]

theorem writeBytes_take_eq_filledBlock {n : Nat} {s : State} (fills : 64 ≤ s.bufcnt.toNat + n) :
    writeBytes ((updateBytes n s.dataIn).take (64 - s.bufcnt.toNat)) s.bufcnt.toNat s.buf = filledBlock s := by
  have taken : ((updateBytes n s.dataIn).take (64 - s.bufcnt.toNat)).length = 64 - s.bufcnt.toNat := by
    rw [List.length_take, length_updateBytes]; omega
  apply Vector.ext
  intro j hj
  rw [getElem_writeBytes, taken, getElem_filledBlock]
  split
  case isTrue new =>
    rw [if_neg (by omega), List.getD_eq_getElem?_getD, List.getElem?_take_of_lt (by omega), ← List.getD_eq_getElem?_getD,
      getD_updateBytes_eq_extractLsb' _ (by omega)]
  case isFalse old => rw [if_pos (by omega)]

/-- LOAD's words from a block (R120, R144). -/
theorem getElem_loadWords_low (B : Vector Byte 64) (W : Vector Word 64) (i : Nat) (h : i < 16) :
    (loadWords B W)[i] = B[4 * i] ++ B[4 * i + 1] ++ B[4 * i + 2] ++ B[4 * i + 3] := by
  rw [getElem_loadWords, dif_pos h, blockWord, be32_append]

theorem getElem_loadWords_high (B : Vector Byte 64) (W : Vector Word 64) (i : Nat) (h : i < 64) (high : 16 ≤ i) :
    (loadWords B W)[i] = W[i] := by
  rw [getElem_loadWords, dif_neg (by omega)]

/-- Settles O9: the block is complete (`writeBytes_take_eq_filledBlock`) and LOADed (`absorbUpdate_fill`), and the rest of
UPDATE's bytes are written over its beginning. -/
theorem updateThatFillsABlockLoadsIt : Obligations.UpdateThatFillsABlockLoadsIt := by
  intro n s low high idle opened fills
  have small := s.bufcnt.isLt
  have record := absorbUpdate_fill high fills (writeBytes_take_eq_filledBlock fills)
  refine ⟨absorbUpdate n s, exec_of_idle (wf_update.mpr ⟨low, high⟩) idle (.inr opened), ?_⟩
  rw [record]
  refine ⟨rfl, getElem_loadWords_low (filledBlock s) s.W, getElem_loadWords_high (filledBlock s) s.W, fun j h => ?_⟩
  have left : ((updateBytes n s.dataIn).drop (64 - s.bufcnt.toNat)).length = s.bufcnt.toNat + n - 64 := by
    rw [List.length_drop, length_updateBytes]; omega
  rw [getElem_writeBytes, left, Nat.zero_add, Nat.sub_zero]
  simp only [Nat.zero_le, true_and]
  split
  case isTrue new =>
    rw [List.getD_eq_getElem?_getD, List.getElem?_drop, ← List.getD_eq_getElem?_getD,
      getD_updateBytes_eq_extractLsb' _ (by omega)]
  case isFalse old => rfl

/-! ### FINAL byte by byte (R106, R174) -/

/-- Word 14 of a block with the length put in is the length's high half (R106, R120). -/
theorem loadWords_putLength_14 (len : BitVec 64) (buf : Vector Byte 64) (W : Vector Word 64) :
    (loadWords (putLength len buf) W)[14] = len.extractLsb' 32 32 := by
  rw [getElem_loadWords_low _ _ 14 (by decide), ← lengthByte_high]
  simp [getElem_putLength]

/-- Word 15 is its low half. -/
theorem loadWords_putLength_15 (len : BitVec 64) (buf : Vector Byte 64) (W : Vector Word 64) :
    (loadWords (putLength len buf) W)[15] = len.extractLsb' 0 32 := by
  rw [getElem_loadWords_low _ _ 15 (by decide), ← lengthByte_low]
  simp [getElem_putLength]

/-- Settles O10: the block is `padFinal_one`'s, read byte by byte and loaded; its last two words are the length field's
halves (`loadWords_putLength_14`, `loadWords_putLength_15`). -/
theorem finalPadsIntoOneBlock : Obligations.FinalPadsIntoOneBlock := by
  intro s idle opened fits
  refine ⟨padFinal s, exec_of_idle rfl idle (.inr opened), ?_⟩
  rw [padFinal_one fits]
  refine ⟨rfl, fun j h => ?bytes, getElem_loadWords_low _ s.W, getElem_loadWords_high _ s.W,
    loadWords_putLength_14 s.len _ s.W, loadWords_putLength_15 s.len _ s.W⟩
  case bytes =>
    rw [getElem_putLength, getElem_padMarker]
    by_cases data : j < 56
    · simp only [data, if_true]
    · rw [if_neg data, if_neg (by omega), if_neg (by omega), if_neg data]; rfl

/-- Settles O11: the first block is `padFinal_two`'s, loaded; the second is read byte by byte. -/
theorem finalSpillsIntoASecondBlock : Obligations.FinalSpillsIntoASecondBlock := by
  intro s idle opened spills
  refine ⟨padFinal s, exec_of_idle rfl idle (.inr opened), ?_⟩
  rw [padFinal_two spills]
  refine ⟨rfl, getElem_loadWords_low (padMarker s.bufcnt.toNat s.buf) s.W, getElem_loadWords_high _ s.W, fun j h => ?_⟩
  rw [getElem_putLength, getElem_zeroData]
  split <;> rfl

/-! ### What the checks let through (R177, R223) -/

theorem ErrCode.code_eq_one_iff {e : ErrCode} : e.code = 1 ↔ e = .busy := by cases e <;> decide

/-- A host that keeps the contract has no command refused with BUSY. -/
theorem refuses_ne_busy {s : State} (contract : s.keepsContract) : s.refuses ≠ some .busy := by
  unfold State.refuses
  split
  case h_1 => simp
  case h_2 w written =>
    have free : s.busy = false := contract (by rw [written]; rfl)
    rw [free, if_neg (by decide)]
    split
    case h_4 | h_5 => split <;> simp
    all_goals simp

/-- Settles O24: only a refusal writes ERRCODE, and under the contract none is for BUSY (`refuses_ne_busy`); INIT and
reset clear it. -/
theorem contractKeepsBusyErrorsAway : Obligations.ContractKeepsBusyErrorsAway := by
  intro s t contract hstep before
  cases step_effect hstep with
  | core _ _ _ _ _ eff =>
    obtain ⟨-, -, -, kept⟩ := coreStep_keeps eff
    rw [kept]; exact before
  | reset _ _ _ _ _ eff => rw [eff, resetCore_errcode]; decide
  | refused _ e hs _ _ _ _ refuse eff =>
    have notBusy : e ≠ .busy := fun busy => refuses_ne_busy contract (busy ▸ refuse)
    rw [eff, raiseError_errcode]
    split
    · exact before
    · exact mt ErrCode.code_eq_one_iff.mp notBusy
  | accepted _ i _ _ _ _ _ _ _ _ _ eff =>
    rw [eff]
    cases i with
    | init => simp [acceptEffect]
    | _ => simpa [acceptEffect] using before
  | dataIn _ _ _ _ _ _ _ eff => rw [eff]; exact before
  | hostOnly _ _ _ _ _ _ eff => rw [eff]; exact before

/-! ### From the window to the command (R15, R170) -/

/-- A write of a command's word at BASE runs the command. -/
theorem hostWrite_cmd {w : Word} {i : Instr} (word : decode w = .legal i) (s : State) :
    hostWrite s.base 4 w s = exec i s := by
  rw [← accept_legal word]
  exact atWindow_offset .cmd s fun off => memWrite off w s

/-- Settles O25: a listed write reaches CMD (`hostWrite_cmd`), a WR of the program is a write (`scriptStep_wr`), and
withFetchWord lists one. -/
theorem stepRunsTheDecodedCommand : Obligations.StepRunsTheDecodedCommand := by
  have listed (w : Word) (i : Instr) (rest : List Turn) (s : State) (word : decode w = .legal i)
      (turns : s.turns = .write s.base 4 w :: rest) : step s = exec i { s with turns := rest } := by
    rw [step_cons turns]
    exact hostWrite_cmd word { s with turns := rest }
  refine ⟨listed, fun w i s word noTurn idle stmt => ?script, fun w i s word => ?fetch⟩
  case script =>
    rw [step_nil noTurn, (busy_eq_false s).mpr idle, if_neg (by decide), scriptStep_wr stmt]
    exact accept_legal word (advance s)
  case fetch =>
    have same : BitVec.ofNat 32 (w.toNat % 2 ^ 32) = w := by
      rw [Nat.mod_eq_of_lt w.isLt, BitVec.ofNat_toNat, BitVec.setWidth_eq]
    refine listed w i s.turns _ word ?_
    rw [State.withFetchWord, same]; rfl

end Sys2Proof.Machine
end

section
/-! FINAL's job from the accept to the digest (R107, R163, R174). -/

namespace Sys2Proof.Machine

/-- Micro-steps leave the turns, the host and the error record. -/
theorem coreSteps_keeps {k : Nat} {s t : State} (run : coreSteps k s = .next t) :
    t.turns = s.turns ∧ t.host = s.host ∧ t.err = s.err ∧ t.errcode = s.errcode := by
  induction k generalizing t with
  | zero => cases run; exact ⟨rfl, rfl, rfl, rfl⟩
  | succ k ih =>
    rw [coreSteps_succ] at run
    obtain ⟨u, before, last⟩ := andThen_eq_next run
    obtain ⟨turns, host, err, errcode⟩ := ih before
    obtain ⟨turns', host', err', errcode'⟩ := coreStep_keeps last
    exact ⟨turns'.trans turns, host'.trans host, err'.trans err, errcode'.trans errcode⟩

/-- A job of FINAL, from its LOAD on, ends FINAL after 113 micro-steps, or has the next job LOADed where a block is
pending (R147, R227). -/
theorem Finishing.coreSteps_job {m : List Byte} {i : Nat} {s : State} (h : Finishing m i s) (phase : s.phase = .sched)
    (index : s.t = 16) : ∃ u, coreSteps 113 s = .next u ∧ (s.pend2 = false → Finished m u) ∧
      (s.pend2 = true → Finishing m (i + 1) u ∧ u.phase = .sched ∧ u.t = 16 ∧ u.pend2 = false) := by
  obtain ⟨-, work, W0, words⟩ := (jobOnBlock_sched phase).mp h.job
  rw [index] at words
  obtain ⟨u, run, atFold, job, kept⟩ := coreSteps_job_endsInFold phase index words work
  have folded := (h.congr kept job).foldStep (job.foldStep_H atFold)
  have after : (Machine.foldStep u).phase = if s.pend2 then .sched else .idle := kept.pend2 ▸ foldStep_phase u
  refine ⟨Machine.foldStep u, run, fun single => ?_, fun pending => ?_⟩
  · rw [single] at after
    exact folded.resolve_left fun running => running.job.running after
  · rw [pending] at after
    have next := folded.resolve_right fun ended => by cases after.symm.trans ended.idle
    exact ⟨next, after, by rw [foldStep_t, kept.pend2, pending]; rfl, foldStep_pend2 u⟩

/-- Settles O56: FINAL starts the job on the block that m ends in (`Represents.finishing_padFinal`), and one job ends
FINAL, or two where the padding spills (`Finishing.coreSteps_job`). -/
theorem finalDeliversTheDigest : Obligations.FinalDeliversTheDigest := by
  intro m s h idle
  obtain ⟨one, two⟩ := h.padFinal_pending
  obtain ⟨v, firstJob, single, pending⟩ :=
    (h.finishing_padFinal idle).coreSteps_job (padFinal_phase s) (padFinal_t s)
  have ends : ∃ u, coreSteps (if s.bufcnt.toNat ≤ 55 then 113 else 226) (padFinal s) = .next u ∧ Finished m u := by
    split
    case isTrue fits => exact ⟨v, firstJob, single (one fits).1⟩
    case isFalse spills =>
      obtain ⟨next, phase, index, noMore⟩ := pending (two (by omega)).1
      obtain ⟨u, secondJob, last, -⟩ := next.coreSteps_job phase index
      exact ⟨u, by rw [coreSteps_add 113 113, firstJob, andThen_next, secondJob], last noMore⟩
  obtain ⟨u, run, ended⟩ := ends
  obtain ⟨-, -, err, errcode⟩ := coreSteps_keeps run
  exact ⟨padFinal s, u, h.exec_final idle, run, ended.hash, ended.done, ended.idle, ended.count,
    ended.bits.trans h.bits.symm, err.trans (padFinal_err s), errcode.trans (padFinal_errcode s)⟩

end Sys2Proof.Machine
end

section
/-! Running a host program against the core (R79, R178): where the host stands, a statement on an idle core, and WAIT. The
turns listed are the core's and the host program's, in any order. -/

namespace Sys2Proof.Machine

/-! ### Coming to a state -/

/-- In some number of steps `s` comes to a state that meets `Q`. -/
def Reaches (s : State) (Q : State → Prop) : Prop := ∃ k t, Host.Core.run Sys2Proof.core k s = .next t ∧ Q t

theorem Reaches.now {s : State} {Q : State → Prop} (h : Q s) : Reaches s Q := ⟨0, s, rfl, h⟩

theorem Reaches.step {s t : State} {Q : State → Prop} (first : step s = .next t) (h : Reaches t Q) : Reaches s Q := by
  obtain ⟨k, u, run, reached⟩ := h
  exact ⟨k + 1, u, (run_next first k).trans run, reached⟩

theorem Reaches.trans {s : State} {P Q : State → Prop} (h : Reaches s P) (onward : ∀ t, P t → Reaches t Q) :
    Reaches s Q := by
  obtain ⟨j, t, run, atT⟩ := h
  obtain ⟨k, u, run', atU⟩ := onward t atT
  exact ⟨j + k, u, (run_add j run k).trans run', atU⟩

/-! ### Where the host stands -/

/-- The turns listed are the core's and the host program's. -/
def OnlyAgents (ts : List Turn) : Prop := ∀ tu ∈ ts, tu = .core ∨ tu = .script

theorem OnlyAgents.tail {tu : Turn} {ts : List Turn} (h : OnlyAgents (tu :: ts)) : OnlyAgents ts :=
  fun x mem => h x (List.mem_cons_of_mem _ mem)

/-- The host runs `prog` and has the statements `rest` before it. -/
structure HostSide.StandsBefore (prog rest : List Stmt) (hs : HostSide) : Prop where
  script : hs.script = prog
  ahead : prog.drop hs.pos = rest

section Host
variable {prog rest : List Stmt} {st : Stmt} {hs hs' : HostSide}

theorem HostSide.StandsBefore.statement (h : hs.StandsBefore prog (st :: rest)) : hs.script[hs.pos]? = some st := by
  rw [h.script, ← List.head?_drop, h.ahead]; rfl

theorem HostSide.StandsBefore.next (h : hs.StandsBefore prog (st :: rest)) (script : hs'.script = hs.script)
    (pos : hs'.pos = hs.pos + 1) : hs'.StandsBefore prog rest :=
  ⟨script.trans h.script, by rw [pos, ← List.tail_drop, h.ahead]; rfl⟩

/-- A program whose labels name one place each has a label's position where the host stands before it. -/
theorem HostSide.StandsBefore.labelPos {l : Nat} (h : hs.StandsBefore prog (.label l :: rest))
    (unique : prog.count (.label l) ≤ 1) : labelPos l hs.script = some (hs.pos + 1) := by
  have inside : hs.pos < prog.length := by
    by_contra past
    have := h.ahead
    rw [List.drop_eq_nil_of_le (by omega)] at this
    cases this
  have split : prog.take hs.pos ++ .label l :: rest = prog := by rw [← h.ahead, List.take_append_drop]
  rw [h.script]
  calc Machine.labelPos l prog
      _ = Machine.labelPos l (prog.take hs.pos ++ .label l :: rest) := by rw [split]
      _ = some ((prog.take hs.pos).length + 1) := labelPos_of_count_le_one (by rwa [split])
      _ = some (hs.pos + 1) := by rw [List.length_take, Nat.min_eq_left (Nat.le_of_lt inside)]

end Host

/-- What is known while a host program runs: the statements before the host, and `C` of the core. -/
structure Ahead (prog rest : List Stmt) (C : State → Prop) (s : State) : Prop where
  host : s.host.StandsBefore prog rest
  listed : OnlyAgents s.turns
  core : C s

/-- `C` is about the core's own registers: the turns and the host have no part in it. -/
def CoreOnly (C : State → Prop) : Prop := ∀ (s : State) (ts : List Turn) (hs : HostSide), C s →
  C { s with turns := ts, host := hs }

/-- In a state of `C` the core's turn has a next state, again of `C`. -/
def KeptByCore (C : State → Prop) : Prop := ∀ s, C s → ∃ t, coreStep s = .next t ∧ C t

/-! ### A statement on an idle core -/

theorem scriptStep_wr_cmd {s : State} {w : Word} {i : Instr} (stmt : s.host.script[s.host.pos]? = some (.wr .cmd w))
    (word : decode w = .legal i) : scriptStep s = exec i (advance s) := by
  rw [scriptStep_wr stmt]; exact accept_legal word (advance s)

/-- The host's side after it has read `v` into the variable `x`. -/
def HostSide.afterRead (x : Nat) (v : Word) (hs : HostSide) : HostSide :=
  { hs.setVar x v with pos := hs.pos + 1, reads := hs.reads ++ [v] }

theorem scriptStep_rd_setHost {s : State} {x : Nat} {r : Reg} (stmt : s.host.script[s.host.pos]? = some (.rd x r)) :
    scriptStep s = .next (s.setHost (s.host.afterRead x (readReg s r))) := by
  rw [scriptStep_rd stmt]; rfl

theorem HostSide.var_afterRead (x : Nat) (v : Word) (hs : HostSide) : (hs.afterRead x v).var x = v :=
  HostSide.var_setVar_self x v hs

/-- On an idle core the host's program moves in the end, whatever turns are listed before. -/
theorem reaches_of_scriptStep {s : State} {Q : State → Prop} (idle : s.phase = .idle) (listed : OnlyAgents s.turns)
    (moves : ∀ ts, OnlyAgents ts → ∃ t, scriptStep { s with turns := ts } = .next t ∧ Reaches t Q) : Reaches s Q := by
  obtain ⟨ts, turns⟩ : ∃ ts, s.turns = ts := ⟨_, rfl⟩
  induction ts generalizing s with
  | nil =>
    obtain ⟨t, next, onward⟩ := moves s.turns listed
    refine .step ?_ onward
    rw [step_nil turns, (busy_eq_false s).mpr idle]; exact next
  | cons tu ts ih =>
    rw [turns] at listed
    rcases listed tu List.mem_cons_self with rfl | rfl
    · have still : step s = .next { s with turns := ts } := (step_cons turns).trans (coreStep_idle idle)
      exact .step still (ih idle listed.tail moves rfl)
    · obtain ⟨t, next, onward⟩ := moves ts listed.tail
      exact .step ((step_cons turns).trans next) onward

section Statements
variable {prog rest : List Stmt} {C D : State → Prop} {s : State}

/-- A statement before the host is run, where the core is idle. -/
theorem Ahead.reaches_of_scriptStep {sts : List Stmt} {Q : State → Prop} (h : Ahead prog sts C s) (coreOnly : CoreOnly C)
    (idle : ∀ s, C s → s.phase = .idle)
    (moves : ∀ u, Ahead prog sts C u → u.host = s.host → ∃ t, scriptStep u = .next t ∧ Reaches t Q) : Reaches s Q :=
  Machine.reaches_of_scriptStep (idle s h.core) h.listed fun ts listed =>
    moves { s with turns := ts } ⟨h.host, listed, coreOnly s ts s.host h.core⟩ rfl

/-- RD gives the register's value to the observation (R79). -/
theorem Ahead.rd {x : Nat} {r : Reg} {v : Word} (h : Ahead prog (.rd x r :: rest) C s) (coreOnly : CoreOnly C)
    (idle : ∀ s, C s → s.phase = .idle) (value : ∀ s, C s → readReg s r = v) :
    Reaches s fun t => Ahead prog rest C t ∧ t.host.reads = s.host.reads ++ [v] := by
  refine h.reaches_of_scriptStep coreOnly idle fun u atU host => ⟨_, scriptStep_rd_setHost atU.host.statement, .now ?_⟩
  rw [value u atU.core]
  exact ⟨⟨atU.host.next rfl rfl, atU.listed, coreOnly u u.turns _ atU.core⟩, by rw [← host]; rfl⟩

/-- WR to DATA_IN stores its word (R54). -/
theorem Ahead.wr_dataIn {v : Word} (h : Ahead prog (.wr .dataIn v :: rest) C s) (coreOnly : CoreOnly C)
    (idle : ∀ s, C s → s.phase = .idle) (effect : ∀ s, C s → D { s with dataIn := v }) :
    Reaches s (Ahead prog rest D) :=
  h.reaches_of_scriptStep coreOnly idle fun u atU _ => ⟨_, scriptStep_wr atU.host.statement, .now
    ⟨atU.host.next rfl rfl, atU.listed, effect (advance u) (coreOnly u u.turns _ atU.core)⟩⟩

/-- WR of a command's word to CMD runs the command (R170). -/
theorem Ahead.wr_cmd {w : Word} {i : Instr} (h : Ahead prog (.wr .cmd w :: rest) C s) (coreOnly : CoreOnly C)
    (idle : ∀ s, C s → s.phase = .idle) (word : decode w = .legal i)
    (opened : ∀ s, C s → needsOpenMessage i = false ∨ s.done = false) (effect : ∀ s, C s → D (acceptEffect i s)) :
    Reaches s (Ahead prog rest D) := by
  refine h.reaches_of_scriptStep coreOnly idle fun u atU _ => ?_
  have core : C (advance u) := coreOnly u u.turns _ atU.core
  have run := exec_of_idle (decode_wf word) (idle _ core) (opened _ core)
  obtain ⟨-, -, turns, host, -⟩ := commandsLeaveTheRest _ _ _ run
  refine ⟨_, (scriptStep_wr_cmd atU.host.statement word).trans run, .now ⟨?_, ?_, effect _ core⟩⟩
  · rw [host]; exact atU.host.next rfl rfl
  · rw [turns]; exact atU.listed

end Statements

/-! ### WAIT (R80) -/

/-- WAIT's mask takes BUSY out of STATUS (R37). -/
theorem status_and_one_eq_zero (s : State) : s.status &&& 0x1 = 0 ↔ s.phase = .idle := by
  obtain ⟨busy, -⟩ := statusFieldsAreWhereTheyBelong.1 s
  rw [show s.status &&& 0x1 = _ from BitVec.and_one_eq_setWidth_ofBool_getLsbD, busy]
  by_cases idle : s.phase = .idle <;> simp [idle]

/-- Where the host stands in a WAIT, with how many of its own steps are left if the core is idle. BNZ lets it out only
where the core is idle: BUSY was 0 when it was read, and no command has been written since. -/
inductive WaitPlace (prog rest : List Stmt) (l : Nat) (s : State) : Nat → Prop where
  | label (here : s.host.StandsBefore prog (waitStmts l ++ rest)) : WaitPlace prog rest l s 3
  | read (here : s.host.StandsBefore prog (.rd waitVar .status :: .bnz waitVar 0x1 l :: rest)) :
      WaitPlace prog rest l s 2
  | again (here : s.host.StandsBefore prog (.bnz waitVar 0x1 l :: rest)) (busy : s.host.var waitVar &&& 0x1 ≠ 0) :
      WaitPlace prog rest l s 3
  | out (here : s.host.StandsBefore prog (.bnz waitVar 0x1 l :: rest)) (free : s.host.var waitVar &&& 0x1 = 0)
      (idle : s.phase = .idle) : WaitPlace prog rest l s 1

section Wait
variable {prog rest : List Stmt} {l n : Nat} {C : State → Prop} {s : State}

theorem WaitPlace.congr {t : State} (h : WaitPlace prog rest l s n) (host : t.host = s.host)
    (idle : s.phase = .idle → t.phase = .idle) : WaitPlace prog rest l t n := by
  cases h with
  | label here => exact .label (host ▸ here)
  | read here => exact .read (host ▸ here)
  | again here busy => exact .again (host ▸ here) (host ▸ busy)
  | out here free idle' => exact .out (host ▸ here) (host ▸ free) (idle idle')

/-- The host's turn in a WAIT changes the host only; it goes on in the WAIT, nearer to its end if the core is idle, or leaves
it with the core idle. -/
theorem WaitPlace.scriptStep {q : Nat} (h : WaitPlace prog rest l s n) (target : labelPos l prog = some q)
    (loop : prog.drop q = .rd waitVar .status :: .bnz waitVar 0x1 l :: rest) :
    ∃ hs, scriptStep s = .next (s.setHost hs) ∧
      ((∃ k, WaitPlace prog rest l (s.setHost hs) k ∧ (s.phase = .idle → k < n)) ∨
        (s.phase = .idle ∧ hs.StandsBefore prog rest)) := by
  cases h with
  | label here =>
    exact ⟨_, scriptStep_label here.statement, .inl ⟨2, .read (here.next rfl rfl), fun _ => by decide⟩⟩
  | read here =>
    refine ⟨_, scriptStep_rd_setHost here.statement, .inl ?_⟩
    have status := HostSide.var_afterRead waitVar s.status s.host
    by_cases idle : s.phase = .idle
    · exact ⟨1, .out (here.next rfl rfl) (status.symm ▸ (status_and_one_eq_zero s).mpr idle) idle, fun _ => by decide⟩
    · exact ⟨3, .again (here.next rfl rfl) (status.symm ▸ mt (status_and_one_eq_zero s).mp idle), fun h => absurd h idle⟩
  | again here busy =>
    refine ⟨{ s.host with pos := q }, ?_, .inl ⟨2, .read ⟨here.script, loop⟩, fun _ => by decide⟩⟩
    rw [scriptStep_eq_runStmt here.statement, runStmt, if_pos busy, here.script, target]; rfl
  | out here free idle =>
    refine ⟨{ s.host with pos := s.host.pos + 1 }, ?_, .inr ⟨idle, here.next rfl rfl⟩⟩
    rw [scriptStep_eq_runStmt here.statement, runStmt, if_neg (not_not_intro free)]; rfl

/-- The core's turn leaves the host where it is in its WAIT. -/
theorem WaitPlace.coreStep (h : WaitPlace prog rest l s n) (kept : KeptByCore C) (core : C s) :
    ∃ t, coreStep s = .next t ∧ t.turns = s.turns ∧ WaitPlace prog rest l t n ∧ C t := by
  obtain ⟨t, next, core'⟩ := kept s core
  obtain ⟨turns, host, -⟩ := coreStep_keeps next
  refine ⟨t, next, turns, h.congr host fun idle => ?_, core'⟩
  cases (coreStep_idle idle).symm.trans next; exact idle

/-! The host loops back to `q`, the place after WAIT's label, while the core does its job. -/
variable {q : Nat} (coreOnly : CoreOnly C) (target : labelPos l prog = some q)
  (loop : prog.drop q = .rd waitVar .status :: .bnz waitVar 0x1 l :: rest)

include coreOnly target loop

/-- With the core idle WAIT ends. -/
theorem WaitPlace.reaches_of_idle (h : WaitPlace prog rest l s n) (idle : s.phase = .idle)
    (listed : OnlyAgents s.turns) (core : C s) : Reaches s (Ahead prog rest fun t => C t ∧ t.phase = .idle) := by
  induction n using Nat.strong_induction_on generalizing s with
  | _ n ih =>
    refine Machine.reaches_of_scriptStep idle listed fun ts listed => ?_
    have place : WaitPlace prog rest l { s with turns := ts } n := h.congr rfl fun _ => idle
    obtain ⟨hs, next, ⟨k, place, nearer⟩ | ⟨-, out⟩⟩ := place.scriptStep target loop
    · exact ⟨_, next, ih k (nearer idle) place idle listed (coreOnly s ts hs core)⟩
    · exact ⟨_, next, .now ⟨out, listed, coreOnly s ts hs core, idle⟩⟩

variable (kept : KeptByCore C)

include kept

/-- With no turn listed the core does its job to the end, and WAIT then ends. -/
theorem WaitPlace.reaches_of_no_turn (h : WaitPlace prog rest l s n) (noTurn : s.turns = []) (core : C s) :
    Reaches s (Ahead prog rest fun t => C t ∧ t.phase = .idle) := by
  induction count : microStepsLeft s using Nat.strong_induction_on generalizing s with
  | _ left ih =>
    by_cases idle : s.phase = .idle
    · exact h.reaches_of_idle coreOnly target loop idle (by rw [noTurn]; exact nofun) core
    · obtain ⟨t, next, turns, place, core'⟩ := h.coreStep kept core
      have fewer := microStepsLeft_coreStep idle next
      exact .step ((step_nil_of_busy noTurn idle).trans next)
        (ih (microStepsLeft t) (by omega) place (turns.trans noTurn) core' rfl)

/-- WAIT ends with the core idle, whoever moves in between (R80, R227). -/
theorem WaitPlace.reaches (h : WaitPlace prog rest l s n) (listed : OnlyAgents s.turns) (core : C s) :
    Reaches s (Ahead prog rest fun t => C t ∧ t.phase = .idle) := by
  obtain ⟨ts, turns⟩ : ∃ ts, s.turns = ts := ⟨_, rfl⟩
  induction ts generalizing s n with
  | nil => exact h.reaches_of_no_turn coreOnly target loop kept turns core
  | cons tu ts ih =>
    rw [turns] at listed
    have place : WaitPlace prog rest l { s with turns := ts } n := h.congr rfl id
    have core' : C { s with turns := ts } := coreOnly s ts s.host core
    rcases listed tu List.mem_cons_self with rfl | rfl
    · obtain ⟨t, next, turns', place, core'⟩ := place.coreStep kept core'
      exact .step ((step_cons turns).trans next) (ih place (turns' ▸ listed.tail) core' turns')
    · obtain ⟨hs, next, ⟨k, place, -⟩ | ⟨idle, out⟩⟩ := place.scriptStep target loop
      · exact .step ((step_cons turns).trans next) (ih place listed.tail (coreOnly s ts hs core) rfl)
      · exact .step ((step_cons turns).trans next) (.now ⟨out, listed.tail, coreOnly s ts hs core, idle⟩)

end Wait

/-- The host goes through a WAIT once the core is idle (R80). -/
theorem Ahead.wait {prog rest : List Stmt} {l : Nat} {C : State → Prop} {s : State}
    (h : Ahead prog (waitStmts l ++ rest) C s) (unique : prog.count (.label l) ≤ 1) (coreOnly : CoreOnly C)
    (kept : KeptByCore C) : Reaches s (Ahead prog rest fun t => C t ∧ t.phase = .idle) := by
  have target : labelPos l prog = some (s.host.pos + 1) := h.host.script ▸ h.host.labelPos unique
  have loop := (h.host.next (hs' := { s.host with pos := s.host.pos + 1 }) rfl rfl).ahead
  exact (WaitPlace.label h.host).reaches coreOnly target loop kept h.listed h.core

/-! ### The end of the program -/

/-- Past its last statement the program has ended (log entry 5). -/
theorem HostSide.StandsBefore.past {prog : List Stmt} {hs : HostSide} (h : hs.StandsBefore prog []) :
    hs.script[hs.pos]? = none := by
  rw [h.script, ← List.head?_drop, h.ahead]; rfl

theorem HostSide.StandsBefore.ended {prog : List Stmt} {hs : HostSide} (h : hs.StandsBefore prog []) :
    hs.ended = true := by
  simp only [HostSide.ended, h.past]

/-- Turns left when the core is idle and the program has ended change nothing (log entry 5). -/
theorem reaches_no_turn {s : State} (idle : s.phase = .idle) (past : s.host.script[s.host.pos]? = none)
    (listed : OnlyAgents s.turns) : Reaches s fun t => t = { s with turns := [] } := by
  obtain ⟨ts, turns⟩ : ∃ ts, s.turns = ts := ⟨_, rfl⟩
  induction ts generalizing s with
  | nil => exact .now (by rw [← turns])
  | cons tu ts ih =>
    rw [turns] at listed
    have still : step s = .next { s with turns := ts } := by
      rw [step_cons turns]
      rcases listed tu List.mem_cons_self with rfl | rfl
      · exact coreStep_idle idle
      · simp only [serve, scriptStep, past]
    exact .step still (ih idle past listed.tail rfl)

end Sys2Proof.Machine
end

section
/-! The program HASHMSG, and any other split of a message (R80, R178): what the core holds after each of its parts. -/

namespace Sys2Proof.Machine

/-! ### What the core holds -/

/-- No error is recorded (R33). -/
def NoError (s : State) : Prop := s.err = false ∧ s.errcode = 0

/-- The core holds the message `m`, with no error recorded. -/
def Holding (m : List Byte) (s : State) : Prop := Represents m s ∧ NoError s

/-- FINAL's job on `m` runs or has ended, with no error recorded. -/
def Ending (m : List Byte) (s : State) : Prop := ((∃ i, Finishing m i s) ∨ Finished m s) ∧ NoError s

theorem NoError.coreStep {s t : State} (h : NoError s) (turn : coreStep s = .next t) : NoError t := by
  obtain ⟨-, -, err, errcode⟩ := coreStep_keeps turn
  exact ⟨err.trans h.1, errcode.trans h.2⟩

theorem CoreOnly.and {C D : State → Prop} (hC : CoreOnly C) (hD : CoreOnly D) : CoreOnly fun s => C s ∧ D s :=
  fun s ts hs ⟨c, d⟩ => ⟨hC s ts hs c, hD s ts hs d⟩

theorem coreOnly_idle : CoreOnly fun s => s.phase = .idle := fun _ _ _ idle => idle

theorem coreOnly_dataIn (v : Word) : CoreOnly fun s => s.dataIn = v := fun _ _ _ data => data

theorem coreOnly_holding (m : List Byte) : CoreOnly (Holding m) :=
  fun _ _ _ ⟨h, err⟩ => ⟨h.congr rfl rfl rfl rfl rfl rfl rfl rfl rfl rfl rfl, err⟩

theorem coreOnly_finished (m : List Byte) : CoreOnly (Finished m) :=
  fun _ _ _ ⟨done, idle, count, bits, hash⟩ => ⟨done, idle, count, bits, hash⟩

theorem coreOnly_ending (m : List Byte) : CoreOnly (Ending m) :=
  fun s ts hs ⟨h, err⟩ => ⟨h.imp
    (fun ⟨i, job⟩ => ⟨i, job.congr ⟨rfl, rfl, rfl, rfl, rfl, rfl, rfl⟩ (job.job.congr rfl rfl rfl rfl rfl)⟩)
    (coreOnly_finished m s ts hs), err⟩

/-- A job's turn always has a next state: its SCHED steps begin at T = 16 (R29). -/
theorem JobOnBlock.coreStep_answers {B : Vector Byte 64} {s : State} (job : JobOnBlock B s) :
    ∃ t, coreStep s = .next t :=
  Machine.coreStep_answers fun phase => ((jobOnBlock_sched phase).mp job).1

theorem keptByCore_holding (m : List Byte) : KeptByCore (Holding m) := by
  intro s ⟨h, err⟩
  have answers : ∃ t, coreStep s = .next t := by
    by_cases idle : s.phase = .idle
    · exact ⟨s, coreStep_idle idle⟩
    · exact (h.job idle).coreStep_answers
  obtain ⟨t, turn⟩ := answers
  exact ⟨t, turn, h.coreStep turn, err.coreStep turn⟩

theorem keptByCore_ending (m : List Byte) : KeptByCore (Ending m) := by
  rintro s ⟨⟨i, job⟩ | ended, err⟩
  · obtain ⟨t, turn⟩ := job.job.coreStep_answers
    exact ⟨t, turn, job.coreStep turn, err.coreStep turn⟩
  · exact ⟨s, coreStep_idle ended.idle, .inr ended, err⟩

/-! ### The parts of the program -/

/-- UPDATE takes the bytes of a group out of the group's word (R57, R80). -/
theorem updateBytes_groupWord {g : List Byte} (few : g.length ≤ 4) : updateBytes g.length (groupWord g) = g := by
  apply List.ext_getElem (length_updateBytes _ _)
  intro k hk hk'
  have byte := extractLsb'_groupWord g (k := k) (by omega)
  rw [show 8 * (3 - k) = 24 - 8 * k by omega] at byte
  simpa [updateBytes, wordByte, hk'] using byte

section Parts
variable {prog rest : List Stmt} {s : State} {m : List Byte} (unique : ∀ l, prog.count (.label l) ≤ 1)

include unique

/-- INIT and its WAIT leave the core idle, with the empty message (R172). -/
theorem Ahead.start {l : Nat} (h : Ahead prog (.wr .cmd 0x00000001 :: waitStmts l ++ rest) (·.phase = .idle) s) :
    Reaches s (Ahead prog rest fun t => Holding [] t ∧ t.phase = .idle) := by
  refine (h.wr_cmd (i := .init) (D := Holding []) coreOnly_idle (fun _ => id) rfl (fun _ _ => .inl rfl) ?_).trans
    fun t here => here.wait (unique l) (coreOnly_holding []) (keptByCore_holding [])
  exact fun s idle => ⟨initMessage_represents idle, by simp [NoError, acceptEffect]⟩

/-- A group and its WAIT leave the core idle, with the group's bytes after the message (R173). -/
theorem Ahead.group {g : List Byte} {l : Nat} (size : 1 ≤ g.length ∧ g.length ≤ 4)
    (h : Ahead prog (groupStmts (g, l) ++ rest) (fun t => Holding m t ∧ t.phase = .idle) s) :
    Reaches s (Ahead prog rest fun t => Holding (m ++ g) t ∧ t.phase = .idle) := by
  have word := decode_of_encode (encode_update_wf (wf_update.mpr size))
  have coreOnly := (coreOnly_holding m).and coreOnly_idle
  have stored := h.wr_dataIn (D := fun t => (Holding m t ∧ t.phase = .idle) ∧ t.dataIn = groupWord g) coreOnly
    (fun _ c => c.2) fun s ⟨⟨held, err⟩, idle⟩ =>
      ⟨⟨⟨held.congr rfl rfl rfl rfl rfl rfl rfl rfl rfl rfl rfl, err⟩, idle⟩, rfl⟩
  refine (stored.trans fun t here => here.wr_cmd (D := Holding (m ++ g)) (coreOnly.and (coreOnly_dataIn _))
    (fun _ c => c.1.2) word (fun _ c => .inr c.1.1.1.notDone) ?_).trans
    fun t here => here.wait (unique l) (coreOnly_holding _) (keptByCore_holding _)
  rintro s ⟨⟨⟨held, err⟩, idle⟩, data⟩
  have absorbed := held.update idle size.2
  rw [data, updateBytes_groupWord size.2] at absorbed
  exact ⟨absorbed, by simpa [NoError, acceptEffect] using err⟩

/-- All the groups leave the core idle, with the whole message. -/
theorem Ahead.groups {gs : List (List Byte)} {l : Nat} (size : ∀ g ∈ gs, 1 ≤ g.length ∧ g.length ≤ 4)
    (h : Ahead prog ((gs.zipIdx l).flatMap groupStmts ++ rest) (fun t => Holding m t ∧ t.phase = .idle) s) :
    Reaches s (Ahead prog rest fun t => Holding (m ++ gs.flatten) t ∧ t.phase = .idle) := by
  induction gs generalizing m l s with
  | nil => simpa using Reaches.now h
  | cons g gs ih =>
    rw [List.zipIdx_cons, List.flatMap_cons, List.append_assoc] at h
    rw [List.flatten_cons, ← List.append_assoc]
    exact (h.group unique (size g List.mem_cons_self)).trans fun t here =>
      ih (fun x mem => size x (List.mem_cons_of_mem _ mem)) here

/-- FINAL and its WAIT leave the digest in H (R174). -/
theorem Ahead.finish {l : Nat}
    (h : Ahead prog (.wr .cmd 0x00000003 :: waitStmts l ++ rest) (fun t => Holding m t ∧ t.phase = .idle) s) :
    Reaches s (Ahead prog rest fun t => Finished m t ∧ NoError t) := by
  have started := h.wr_cmd (i := .final) (D := Ending m) ((coreOnly_holding m).and coreOnly_idle) (fun _ c => c.2) rfl
    (fun _ c => .inr c.1.1.notDone) fun s ⟨⟨held, err⟩, idle⟩ =>
      ⟨.inl ⟨_, held.finishing_padFinal idle⟩, by simpa [NoError, acceptEffect] using err⟩
  refine (started.trans fun t here => here.wait (unique l) (coreOnly_ending m) (keptByCore_ending m)).trans
    fun t ⟨host, listed, ⟨ending, err⟩, idle⟩ => .now ⟨host, listed, ?_, err⟩
  exact ending.resolve_left fun ⟨i, job⟩ => job.job.running idle

end Parts

/-- Reading DIGEST registers of a finished message adds their words to the observation (R80). -/
theorem Ahead.readDigest {prog : List Stmt} {m : List Byte} {s : State} (is : List (Fin 8))
    (h : Ahead prog (is.map fun i => .rd i.val (.digest i)) (fun t => Finished m t ∧ NoError t) s) :
    Reaches s fun t => Ahead prog [] (fun t => Finished m t ∧ NoError t) t ∧
      t.host.reads = s.host.reads ++ is.map fun i => (sha256State m)[i.val] := by
  induction is generalizing s with
  | nil => exact .now ⟨h, by simp⟩
  | cons i is ih =>
    have read := h.rd (v := (sha256State m)[i.val]) ((coreOnly_finished m).and fun _ _ _ err => err)
      (fun _ c => c.1.idle) fun s c => by rw [← c.1.hash]; rfl
    refine read.trans fun t ⟨here, reads⟩ => (ih here).trans fun u ⟨ended, reads'⟩ => .now ⟨ended, ?_⟩
    rw [reads', reads, List.append_assoc]; rfl

theorem map_finRange_getElem (H : Vector Word 8) : (List.finRange 8).map (fun i => H[i.val]) = H.toList := by
  apply List.ext_getElem <;> simp

/-- The program for the groups `gs`, started on an idle core, comes to its end with the digest of their message in H, and
its last reads are H. Its labels stand at one place each (`count_label_hashStmts`), so that each WAIT loops to itself. -/
theorem reaches_end_of_hashStmts {gs : List (List Byte)} {l : Nat} {s : State}
    (size : ∀ g ∈ gs, 1 ≤ g.length ∧ g.length ≤ 4) (idle : s.phase = .idle) (listed : OnlyAgents s.turns)
    (script : s.host.script = hashStmts l gs) (atStart : s.host.pos = 0) :
    Reaches s fun t => Ahead (hashStmts l gs) [] (fun t => Finished gs.flatten t ∧ NoError t) t ∧
      ∃ before, t.host.reads = before ++ (sha256State gs.flatten).toList := by
  have unique (k : Nat) : (hashStmts l gs).count (.label k) ≤ 1 := by
    rw [count_label_hashStmts]; split <;> decide
  have start : Ahead (hashStmts l gs) (.wr .cmd 0x00000001 :: waitStmts l ++ ((gs.zipIdx (l + 1)).flatMap groupStmts ++
      (.wr .cmd 0x00000003 :: waitStmts (l + 1 + gs.length) ++ readDigestStmts))) (·.phase = .idle) s :=
    ⟨⟨script, by rw [atStart, List.drop_zero]; simp [hashStmts]⟩, listed, idle⟩
  have finished := ((start.start unique).trans fun _ here => here.groups unique size).trans fun _ here => here.finish unique
  refine finished.trans fun t here => (here.readDigest (List.finRange 8)).trans fun u ⟨ended, reads⟩ => .now ?_
  rw [map_finRange_getElem] at reads
  exact ⟨ended, t.host.reads, reads⟩

/-- Settles O59: any split of m is the statements of HASHMSG's row for its groups (`hashGroupsStmts_of_lengths`), which end
with the digest (`reaches_end_of_hashStmts`); the turns left over then change nothing (`reaches_no_turn`). -/
theorem hashMessageProgramGivesTheDigest : Obligations.HashMessageProgramGivesTheDigest := by
  intro gs l s size bound idle listed script atStart
  rw [hashGroupsStmts_of_lengths l size, Option.some.injEq] at script
  have bits : (BitVec.ofNat 64 (8 * gs.flatten.length)).toNat = 8 * gs.flatten.length :=
    (BitVec.toNat_ofNat _ _).trans (Nat.mod_eq_of_lt bound)
  change Reaches s fun t => _
  refine (reaches_end_of_hashStmts size idle listed script atStart).trans ?_
  rintro t ⟨⟨host, listed, finished, err, errcode⟩, reads⟩
  refine (reaches_no_turn finished.idle host.past listed).trans ?_
  rintro _ rfl
  exact .now ⟨host.ended, rfl, err, errcode, finished.done, finished.idle, finished.count, finished.bits ▸ bits,
    finished.hash, congrArg hexDigest finished.hash, finished.hash ▸ reads⟩

end Sys2Proof.Machine
end

section
/-! The words that are no command (R75): a word matches a row of R73 by its three fields. -/

namespace Sys2Proof

/-- A word is its three fields, RSV, NB and OP from the top (R70). -/
theorem rsvField_append_nbField_append_opField (w : Word) : rsvField w ++ (nbField w ++ opField w) = w := by
  rw [nbField, opField, BitVec.extractLsb'_append_extractLsb'_eq_extractLsb' (by decide), rsvField,
    BitVec.extractLsb'_append_extractLsb'_eq_extractLsb' (by decide)]
  exact BitVec.extractLsb'_eq_self

theorem eq_iff_fields {v w : Word} :
    v = w ↔ rsvField v = rsvField w ∧ nbField v = nbField w ∧ opField v = opField w := by
  constructor
  · rintro rfl; exact ⟨rfl, rfl, rfl⟩
  · rintro ⟨rsv, nb, op⟩
    rw [← rsvField_append_nbField_append_opField v, rsv, nb, op, rsvField_append_nbField_append_opField]

theorem rsvField_and (v w : Word) : rsvField (v &&& w) = rsvField v &&& rsvField w := BitVec.extractLsb'_and

theorem nbField_and (v w : Word) : nbField (v &&& w) = nbField v &&& nbField w := BitVec.extractLsb'_and

theorem opField_and (v w : Word) : opField (v &&& w) = opField v &&& opField w := BitVec.extractLsb'_and

/-- A row fixes OP, has RSV zero, and has NB zero unless its OP is UPDATE's (R72, R73). -/
theorem covers_iff_fields {r : Row} (hr : r ∈ opcodeRows) (w : Word) : r.covers w = true ↔
    rsvField w = 0 ∧ (opField w = 2 ∨ nbField w = 0) ∧ opField w = opField r.pattern := by
  have rows : ∀ r ∈ opcodeRows, rsvField r.mask = BitVec.allOnes 26 ∧ opField r.mask = BitVec.allOnes 4 ∧
      nbField r.mask = (if opField r.pattern = 2 then 0 else BitVec.allOnes 2) ∧
      rsvField r.pattern = 0 ∧ nbField r.pattern = 0 := by decide
  obtain ⟨rsvMask, opMask, nbMask, rsv, nb⟩ := rows r hr
  rw [covers_iff, eq_iff_fields, rsvField_and, nbField_and, opField_and, rsvMask, opMask, nbMask, rsv, nb,
    BitVec.and_allOnes, BitVec.and_allOnes]
  refine and_congr_right fun _ => and_congr_left fun op => ?_
  rw [op]
  split
  case isTrue update => simp [update]
  case isFalse other => rw [BitVec.and_allOnes, or_iff_right other]

/-- The words of the commands, by their fields (R70 to R73). -/
theorem exists_decode_iff_fields (w : Word) : (∃ i, decode w = .legal i) ↔
    (opField w).toNat < 4 ∧ rsvField w = 0 ∧ (opField w = 2 ∨ nbField w = 0) := by
  rw [exists_decode_iff]
  constructor
  · rintro ⟨r, hr, covers⟩
    obtain ⟨rsv, nb, op⟩ := (covers_iff_fields hr w).mp covers
    have lowOp : ∀ r ∈ opcodeRows, (opField r.pattern).toNat < 4 := by decide
    exact ⟨op ▸ lowOp r hr, rsv, nb⟩
  · rintro ⟨low, rsv, nb⟩
    have rowOfOp : ∀ op : BitVec 4, op.toNat < 4 → ∃ r ∈ opcodeRows, op = opField r.pattern := by decide
    obtain ⟨r, hr, op⟩ := rowOfOp (opField w) low
    exact ⟨r, hr, (covers_iff_fields hr w).mpr ⟨rsv, nb, op⟩⟩

/-- The decoder answers ILLEGAL for every other word (R76). -/
theorem exists_illegal_iff (w : Word) : (∃ why, decode w = .illegal why) ↔ ¬ ∃ i, decode w = .legal i := by
  cases decode w <;> simp

/-- The reserved words are in one of R75's three groups. -/
theorem exists_illegal_iff_fields (w : Word) : (∃ why, decode w = .illegal why) ↔
    4 ≤ (opField w).toNat ∨ rsvField w ≠ 0 ∨ (opField w ≠ 2 ∧ nbField w ≠ 0) := by
  rw [exists_illegal_iff, exists_decode_iff_fields, not_and_or, not_and_or, not_or, not_lt]

end Sys2Proof
end

section
/-! Refusals and the error record (60_exceptions.md R200 to R208). -/

namespace Sys2Proof.Machine

/-! ### A refused command word (R203 to R206) -/

/-- Settles O4: a word is illegal when no row's fields are its own (`exists_illegal_iff_fields`), and the checks of an
idle core then end at ILLEGAL (`checksComeInAFixedOrder`). -/
theorem illegalWordsAreTheReservedOnes : Obligations.IllegalWordsAreTheReservedOnes := by
  refine ⟨exists_illegal_iff_fields, fun w s why idle word => ?_⟩
  rw [checksComeInAFixedOrder.1, if_neg (not_not.mpr idle), word]

/-- Settles O13: BUSY is the first of the checks, before the word is decoded (`checksComeInAFixedOrder`). -/
theorem commandWhileBusyIsDropped : Obligations.CommandWhileBusyIsDropped := by
  intro w s running
  rw [checksComeInAFixedOrder.1, if_pos running]

/-- Settles O14: on an idle core the checks of UPDATE and of FINAL go on to SEQ (`checksComeInAFixedOrder`). -/
theorem finishedMessageIsNotExtended : Obligations.FinishedMessageIsNotExtended := by
  intro w n s idle done word
  rw [checksComeInAFixedOrder.1, if_neg (not_not.mpr idle)]
  rcases word with word | word <;> rw [word] <;> exact if_pos done

/-! ### The error record over every step (R200, R202, R208) -/

/-- Settles O23: the error record by the effect of each kind of step. The core's turn keeps it (`coreStep_keeps`), a
refusal writes it once (`raiseError_errcode`), and of the accepted commands INIT alone clears it. -/
theorem errorsAreStickyUntilInitOrReset : Obligations.ErrorsAreStickyUntilInitOrReset := by
  intro s t hstep
  cases step_effect hstep with
  | core _ noReset _ noAccept noRefuse eff =>
    obtain ⟨-, -, err, errcode⟩ := coreStep_keeps eff
    simp [noReset, noAccept, noRefuse, err, errcode]
  | reset _ resets _ _ _ eff => simp [eff, resets, State.reset]
  | refused _ e _ _ noReset _ noAccept refuse eff =>
    cases e <;> simp [eff, noReset, noAccept, refuse, raiseError_errcode, ErrCode.code]
  | accepted _ i _ _ noReset _ accept noRefuse _ _ _ eff =>
    cases i with
    | init => simp [eff, accept, acceptEffect]
    | nop | update _ | final => simp [eff, noReset, accept, noRefuse, acceptEffect]
  | dataIn _ _ _ noReset _ noAccept noRefuse eff => simp [eff, noReset, noAccept, noRefuse]
  | hostOnly _ _ noReset _ noAccept noRefuse eff => simp [eff, noReset, noAccept, noRefuse]

/-- Settles O47: a legal state has T ≥ 16 in SCHED, so the core's turn has a next state (`coreStep_answers`), and that
turn keeps the error record (`coreStep_keeps`). -/
theorem datapathNeverFaults : Obligations.DatapathNeverFaults := by
  intro s inv
  obtain ⟨t, turn⟩ := coreStep_answers inv.schedIndex
  obtain ⟨-, -, err, errcode⟩ := coreStep_keeps turn
  exact ⟨t, turn, err, errcode⟩

end Sys2Proof.Machine
end

section
/-! How long BUSY lasts (R16, R227): the count `microStepsLeft` runs down to 0, at which the core is idle. -/

namespace Sys2Proof.Machine

/-! ### Running down the micro-steps left -/

theorem microStepsLeft_eq_zero_iff (s : State) : microStepsLeft s = 0 ↔ s.phase = .idle := by
  cases phase : s.phase <;> simp [microStepsLeft, phase]

/-- A block just LOADed is 113 micro-steps from its end, and a pending second block is 113 more (R227). -/
theorem microStepsLeft_of_loaded {s : State} (phase : s.phase = .sched) (index : s.t = 16) :
    microStepsLeft s = if s.pend2 then 226 else 113 := by
  cases pending : s.pend2 <;> simp [microStepsLeft, phase, index, pending]

/-- No core is further from idle than two jobs (R227). -/
theorem microStepsLeft_le {s : State} (enabled : s.phase = .sched → 16 ≤ s.t.toNat) : microStepsLeft s ≤ 226 := by
  have pending : (if s.pend2 then 113 else 0) ≤ 113 := by split <;> omega
  cases phase : s.phase <;> simp only [microStepsLeft, phase]
  case sched => have := enabled phase; omega
  all_goals omega

/-- As long as micro-steps are left they all have a next state, and each takes one off the count. -/
theorem exists_coreSteps {s : State} (enabled : s.phase = .sched → 16 ≤ s.t.toNat) {k : Nat}
    (h : k ≤ microStepsLeft s) :
    ∃ u, coreSteps k s = .next u ∧ (u.phase = .sched → 16 ≤ u.t.toNat) ∧ microStepsLeft u + k = microStepsLeft s := by
  induction k with
  | zero => exact ⟨s, rfl, enabled, rfl⟩
  | succ k ih =>
    obtain ⟨u, run, enabled', left⟩ := ih (by omega)
    have running : u.phase ≠ .idle := mt (microStepsLeft_eq_zero_iff u).mpr (by omega)
    obtain ⟨v, turn⟩ := coreStep_answers enabled'
    have fewer := microStepsLeft_coreStep running turn
    exact ⟨v, by rw [coreSteps_succ, run, andThen_next, turn], coreStep_schedIndex enabled' turn, by omega⟩

/-! ### How long a command keeps the core busy (R176, R227) -/

/-- BUSY stays 1 for exactly `n` micro-steps (R227). -/
def BusyFor (n : Nat) (s : State) : Prop :=
  (∀ k, k < n → ∃ u, coreSteps k s = .next u ∧ u.phase ≠ .idle) ∧ ∃ u, coreSteps n s = .next u ∧ u.phase = .idle

theorem busyFor_zero {s : State} (idle : s.phase = .idle) : BusyFor 0 s :=
  ⟨fun _ none => absurd none (Nat.not_lt_zero _), s, rfl, idle⟩

theorem busyFor_microStepsLeft {s : State} (enabled : s.phase = .sched → 16 ≤ s.t.toNat) :
    BusyFor (microStepsLeft s) s := by
  constructor
  · intro k before
    obtain ⟨u, run, -, left⟩ := exists_coreSteps enabled (Nat.le_of_lt before)
    exact ⟨u, run, mt (microStepsLeft_eq_zero_iff u).mpr (by omega)⟩
  · obtain ⟨u, run, -, left⟩ := exists_coreSteps enabled (le_refl _)
    exact ⟨u, run, (microStepsLeft_eq_zero_iff u).mp (by omega)⟩

/-- One job keeps the core busy for 113 micro-steps, two for 226 (R16, R227). -/
theorem busyFor_of_loaded {s : State} (phase : s.phase = .sched) (index : s.t = 16) :
    BusyFor (if s.pend2 then 226 else 113) s := by
  rw [← microStepsLeft_of_loaded phase index]
  exact busyFor_microStepsLeft fun _ => by rw [index]; decide

/-- FINAL leaves a second block pending exactly when its padding spills (R30, R106). -/
theorem padFinal_pend2 (s : State) : (padFinal s).pend2 = decide (56 ≤ s.bufcnt.toNat) := by
  by_cases fits : s.bufcnt.toNat ≤ 55
  · rw [padFinal_one fits, decide_eq_false (by omega)]
  · rw [padFinal_two (by omega), decide_eq_true (by omega)]

/-- Settles O40: the command takes its effect (`exec_of_idle`). NOP and INIT start no job, an UPDATE starts one exactly
when it fills BUF (`absorbUpdate_phase`), and FINAL starts one with a second pending where the padding spills
(`padFinal_pend2`). -/
theorem commandsTakeTheirMicroSteps : Obligations.CommandsTakeTheirMicroSteps := by
  intro i s t idle single wf run sequence
  have opened : needsOpenMessage i = false ∨ s.done = false := by
    cases done : s.done with
    | false => exact .inr rfl
    | true => rcases sequence done with rfl | rfl <;> exact .inl rfl
  rw [exec_of_idle wf idle opened] at run
  cases run
  cases i with
  | nop => exact busyFor_zero idle
  | init => exact busyFor_zero ((initMessage_phase s).trans idle)
  | update n =>
    have few : n ≤ 4 := (wf_update.mp wf).2
    have phase := absorbUpdate_phase n s few
    have index := absorbUpdate_t n s few
    change BusyFor (if 64 ≤ s.bufcnt.toNat + n then 113 else 0) (absorbUpdate n s)
    split
    case isTrue fills =>
      have job := busyFor_of_loaded (phase.trans (if_pos fills)) (index.trans (if_pos fills))
      rwa [absorbUpdate_pend2, single] at job
    case isFalse room => exact busyFor_zero ((phase.trans (if_neg room)).trans idle)
  | final =>
    have jobs := busyFor_of_loaded (padFinal_phase s) (padFinal_t s)
    rw [padFinal_pend2] at jobs
    change BusyFor (if s.bufcnt.toNat ≤ 55 then 113 else 226) (padFinal s)
    split
    case isTrue fits => rwa [decide_eq_false (by omega)] at jobs
    case isFalse spills => rwa [decide_eq_true (by omega)] at jobs

/-! ### Polling comes to an end (R62, R227) -/

/-- With no turn listed, the steps of a running machine are the core's micro-steps. -/
theorem run_of_coreSteps {s u : State} {k : Nat} (noTurn : s.turns = []) (h : k ≤ microStepsLeft s)
    (run : coreSteps k s = .next u) : Host.Core.run Sys2Proof.core k s = .next u := by
  induction k generalizing s with
  | zero => exact run
  | succ k ih =>
    have running : s.phase ≠ .idle := mt (microStepsLeft_eq_zero_iff s).mpr (by omega)
    rw [coreSteps_cons] at run
    obtain ⟨t, turn, rest⟩ := andThen_eq_next run
    have fewer := microStepsLeft_coreStep running turn
    obtain ⟨turns, -⟩ := coreStep_keeps turn
    exact (run_next ((step_nil_of_busy noTurn running).trans turn) k).trans
      (ih (turns.trans noTurn) (by omega) rest)

/-- Settles O41: a legal state has at most 226 micro-steps left (`microStepsLeft_le`), and with no turn listed they are
the machine's next steps (`run_of_coreSteps`). -/
theorem busyEndsWithinTwoJobs : Obligations.BusyEndsWithinTwoJobs := by
  intro s inv noTurn _
  obtain ⟨-, u, run, idle⟩ := busyFor_microStepsLeft inv.schedIndex
  exact ⟨_, u, microStepsLeft_le inv.schedIndex, run_of_coreSteps noTurn (le_refl _) run, idle⟩

end Sys2Proof.Machine
end

section
/-! A job as one step (R229), a running job's independence from the host (R224), and reset (R220, R221). -/

namespace Sys2Proof.Machine

/-! ### The collapsed job (R229) -/

/-- The collapsed job folds the very state that the job's 48 SCHED and 64 ROUND steps leave. -/
theorem collapsedJob_eq_foldStep (s : State) : collapsedJob s = foldStep ((s.afterSched 48).afterRounds 64) := by
  unfold collapsedJob State.afterRounds State.afterSched
  rfl

/-- Settles O42: the job's micro-steps end in a FOLD (`coreSteps_job`), and the collapsed job is that same FOLD
(`collapsedJob_eq_foldStep`). -/
theorem collapsedJobIsTheWholeJob : Obligations.CollapsedJobIsTheWholeJob := by
  intro s phase index
  rw [coreSteps_job phase index, collapsedJob_eq_foldStep]

/-! ### What a job does not read (R177, R200, R224) -/

/-- `s` with another DATA_IN, other turns and another host. -/
def State.withOutside (v : Word) (ts : List Turn) (hs : HostSide) (s : State) : State :=
  { s with dataIn := v, turns := ts, host := hs }

section Outside
variable (v : Word) (ts : List Turn) (hs : HostSide)

theorem schedStep_withOutside (s : State) :
    schedStep (s.withOutside v ts hs) = (schedStep s).withOutside v ts hs := by
  simp only [schedStep, apply_ite (State.withOutside v ts hs)]
  rfl

theorem roundStep_withOutside (s : State) :
    roundStep (s.withOutside v ts hs) = (roundStep s).withOutside v ts hs := by
  simp only [roundStep, apply_ite (State.withOutside v ts hs)]
  rfl

theorem foldStep_withOutside (s : State) :
    foldStep (s.withOutside v ts hs) = (foldStep s).withOutside v ts hs := by
  simp only [foldStep, afterFold, apply_ite (State.withOutside v ts hs)]
  rfl

/-- The core's turn neither reads nor writes what is outside its job. -/
theorem coreStep_withOutside {s t : State} (turn : coreStep s = .next t) :
    coreStep (s.withOutside v ts hs) = .next (t.withOutside v ts hs) := by
  rcases coreStep_cases turn with ⟨idle, rfl⟩ | ⟨phase, low, rfl⟩ | ⟨phase, rfl⟩ | ⟨phase, rfl⟩
  · exact coreStep_idle idle
  · rw [← schedStep_withOutside]; exact coreStep_sched phase low
  · rw [← roundStep_withOutside]; exact coreStep_round phase
  · rw [← foldStep_withOutside]; exact coreStep_fold phase

theorem coreSteps_withOutside {k : Nat} {s t : State} (run : coreSteps k s = .next t) :
    coreSteps k (s.withOutside v ts hs) = .next (t.withOutside v ts hs) := by
  induction k generalizing s with
  | zero => cases run; rfl
  | succ k ih =>
    rw [coreSteps_cons] at run ⊢
    obtain ⟨u, turn, rest⟩ := andThen_eq_next run
    rw [coreStep_withOutside v ts hs turn, andThen_next]
    exact ih rest

end Outside

/-- Settles O44: the outside goes through each micro-step unread and unchanged (`coreStep_withOutside`), and so, by
induction, through all of them. -/
theorem jobIgnoresTheHost : Obligations.JobIgnoresTheHost := by
  intro k s t v ts hs run
  exact coreSteps_withOutside v ts hs run

/-! ### Reset (R220, R221) -/

/-- Settles O33: a listed reset is served by `resetCore`, whatever the core was doing, and the reads of the reset state
are those of its registers (`memRead_offset`). -/
theorem resetRestoresEveryElement : Obligations.ResetRestoresEveryElement := by
  refine ⟨fun s rest listed => ?served, memRead_offset _ .status, memRead_offset _ .lenLo, memRead_offset _ .lenHi,
    memRead_offset _ .dataIn, fun i => memRead_offset _ (.digest i)⟩
  case served =>
    calc step s = serve .reset { s with turns := rest } := step_cons listed
      _ = .next (resetCore { s with turns := rest }) := rfl

end Sys2Proof.Machine
end
